-- ==== Sys2Proof/Word.lean ====
section
/-!
DEFINITION. The word types of DSA (spec/00_scope.md R4): a byte is 8 bits; a register, an address and an instruction
are 32 bits.
-/

namespace Sys2Proof

/-- A byte of memory: 8 bits (R4). -/
abbrev Byte := BitVec 8

/-- A register value, an address or an instruction word: 32 bits (R4). -/
abbrev Word := BitVec 32

end Sys2Proof
end

