-- ==== Sys2Proof/Syntax.lean ====
section
/-!
DEFINITION. The instructions of DSA as syntax: the 32 register indices (spec/10_state.md R20) and one constructor per row
of spec/opcode_table.json (spec/30_encoding.md R95, R99). The two forms of SHL and SHR are two rows each.
-/

namespace Sys2Proof

/-- The 32 register indices an instruction field can hold (spec/10_state.md R20), sorted by what they name. -/
inductive Reg where
  /-- Indices 0x00 to 0x15: the 22 stored registers `x[i]`. -/
  | stored (i : Fin 22)
  /-- Index 0x16: the constant zero (R26). -/
  | zero
  /-- Index 0x17: `noreg`, the placeholder of an unused field (R27). -/
  | noreg
  /-- Indices 0x18 to 0x1B: `mar`, `mdr`, `sts`, `cir`, internal to the CPU (R28). -/
  | internal (i : Fin 4)
  /-- Index 0x1C: the program counter (R30). -/
  | pcx
  /-- Indices 0x1D to 0x1F: reserved (R29). -/
  | reserved (i : Fin 3)
  deriving DecidableEq, Repr

/-- `rg0` to `rgf`, indices 0x00 to 0x0F (R21). -/
abbrev Reg.rg (n : Fin 16) : Reg := .stored (n.castLE (by decide))
/-- `acc`, index 0x10 (R22). -/
abbrev Reg.acc : Reg := .stored 0x10
/-- `spr`, index 0x11 (R23). -/
abbrev Reg.spr : Reg := .stored 0x11
/-- `bpr`, index 0x12 (R23). -/
abbrev Reg.bpr : Reg := .stored 0x12
/-- `ret`, index 0x13 (R23). -/
abbrev Reg.ret : Reg := .stored 0x13
/-- `idr`, index 0x14, privileged (R24). -/
abbrev Reg.idr : Reg := .stored 0x14
/-- `mmr`, index 0x15, privileged (R25). -/
abbrev Reg.mmr : Reg := .stored 0x15

/-- An instruction. Register fields stand in the order of the machine word (bits 25-21, 20-16, 15-11), before an
immediate or a count; spec/30_encoding.md R99 says which operand each field holds. -/
inductive Instr where
  -- Data movement (spec/40_data_movement.md)
  | nop
  | mov (src dst : Reg)
  | movs (src dst : Reg)
  -- Loads (spec/41_load_store.md): base in bits 25-21, destination in bits 20-16
  | ldb (base dst : Reg) (off : BitVec 16)
  | ldbs (base dst : Reg) (off : BitVec 16)
  | ldh (base dst : Reg) (off : BitVec 16)
  | ldhs (base dst : Reg) (off : BitVec 16)
  | ldw (base dst : Reg) (off : BitVec 16)
  -- Stores: the value stored in bits 25-21, base in bits 20-16
  | stb (src base : Reg) (off : BitVec 16)
  | sth (src base : Reg) (off : BitVec 16)
  | stw (src base : Reg) (off : BitVec 16)
  -- Immediate loads (spec/42_immediate_load.md): destination in bits 25-21
  | lli (dst : Reg) (value : BitVec 16)
  | lui (dst : Reg) (value : BitVec 16)
  -- Jumps (spec/43_jump_branch.md): base in bits 25-21
  | jmp (base : Reg) (off : BitVec 16)
  | jeq (base : Reg) (off : BitVec 16)
  | jne (base : Reg) (off : BitVec 16)
  | jgt (base : Reg) (off : BitVec 16)
  | jge (base : Reg) (off : BitVec 16)
  | jlt (base : Reg) (off : BitVec 16)
  | jle (base : Reg) (off : BitVec 16)
  -- Comparison (spec/44_compare.md)
  | cmp (a b : Reg)
  -- Arithmetic (spec/45_arithmetic.md)
  | inc (reg : Reg)
  | dec (reg : Reg)
  -- Shifts (spec/47_shift.md): the literal form and the register form
  | shlLit (reg : Reg) (count : BitVec 5)
  | shlReg (reg count : Reg)
  | shrLit (reg : Reg) (count : BitVec 5)
  | shrReg (reg count : Reg)
  | add (a b dst : Reg)
  | sub (a b dst : Reg)
  -- Logic (spec/46_logical.md)
  | and (a b dst : Reg)
  | or (a b dst : Reg)
  | not (src dst : Reg)
  | xor (a b dst : Reg)
  | nand (a b dst : Reg)
  | nor (a b dst : Reg)
  | xnor (a b dst : Reg)
  -- System (spec/48_system.md): INT carries its whole immediate, of which bits 7:0 are the code (D18)
  | int (imm : BitVec 16)
  | irt
  | hlt
  | iadd (src dst : Reg) (lit : BitVec 16)
  | isub (src dst : Reg) (lit : BitVec 16)
  -- Meta opcodes (spec/49_meta.md): the source gives bits 25-0 no layout
  | segment (rest : BitVec 26)
  | data (rest : BitVec 26)
  deriving DecidableEq, Repr

end Sys2Proof
end

