-- ==== Sys2Proof/WellFormed.lean ====
section
/-!
DEFINITION. Which instruction terms stand for an instruction word. A register form of SHL or SHR needs a count register
other than `noreg`: with `noreg` in bits 20-16 the word is the literal form (spec/47_shift.md R225, D17). Every other term
has a word of its own (spec/30_encoding.md R99). Which register indices an executed instruction accepts is no matter of
well-formedness: spec/10_state.md R35 checks it when the instruction executes.
-/

namespace Sys2Proof

/-- There is an instruction word for `i`. -/
def Instr.wf : Instr → Bool
  | .shlReg _ count => decide (count ≠ .noreg)
  | .shrReg _ count => decide (count ≠ .noreg)
  | _ => true

end Sys2Proof
end

