-- ==== Sys2Proof/Decode.lean ====
section
/-!
DEFINITION. Decoding (spec/30_encoding.md R90 to R104) and the encoder written from the same tables (R91, R93, R99).
The decoder does what R96 does before the register checks: it selects by the opcode and runs the fixed field check of
R100. The register checks follow when the instruction executes (spec/10_state.md R35).
-/

namespace Sys2Proof

/-! ## Fields of an instruction word (R91, R93) -/

/-- `op`, bits 31-26. -/
def opField (w : Word) : BitVec 6 := w.extractLsb' 26 6
/-- `s1` of the R format and `s` of the I format, bits 25-21. -/
def s1Field (w : Word) : BitVec 5 := w.extractLsb' 21 5
/-- `s2` of the R format and `d` of the I format, bits 20-16. -/
def s2Field (w : Word) : BitVec 5 := w.extractLsb' 16 5
/-- `d` of the R format, bits 15-11. -/
def dField (w : Word) : BitVec 5 := w.extractLsb' 11 5
/-- `sh` of the R format, bits 10-6. -/
def shField (w : Word) : BitVec 5 := w.extractLsb' 6 5
/-- `un` of the R format, bits 5-0. -/
def unField (w : Word) : BitVec 6 := w.extractLsb' 0 6
/-- `imm` of the I format, bits 15-0. -/
def immField (w : Word) : BitVec 16 := w.extractLsb' 0 16
/-- Bits 25-0, to which the source gives no layout in a meta opcode (spec/49_meta.md R250, R251). -/
def restField (w : Word) : BitVec 26 := w.extractLsb' 0 26

/-- The register index a 5-bit field names (spec/10_state.md R20). -/
def Reg.ofBits (b : BitVec 5) : Reg :=
  if h : b.toNat < 0x16 then .stored ⟨b.toNat, h⟩
  else if b.toNat = 0x16 then .zero
  else if b.toNat = 0x17 then .noreg
  else if h : b.toNat < 0x1C then .internal ⟨b.toNat - 0x18, by omega⟩
  else if b.toNat = 0x1C then .pcx
  else .reserved ⟨b.toNat - 0x1D, by have := b.isLt; omega⟩

/-- The 5-bit field value of a register index (spec/10_state.md R20). -/
def Reg.toBits : Reg → BitVec 5
  | .stored i => BitVec.ofNat 5 i.val
  | .zero => 0x16#5
  | .noreg => 0x17#5
  | .internal i => BitVec.ofNat 5 (0x18 + i.val)
  | .pcx => 0x1C#5
  | .reserved i => BitVec.ofNat 5 (0x1D + i.val)

/-! ## Decoding -/

/-- Why a run of bytes is no instruction. Each is an Illegal Instruction when fetched (R100, R104), but for `tooShort`,
which a fetch of four bytes never meets. -/
inductive Reject where
  /-- Fewer than the four bytes of an instruction (R90). -/
  | tooShort
  /-- An opcode that selects no instruction: 0x28 to 0x3D and 0x3F (R104; spec/49_meta.md R252). -/
  | invalidOpcode
  /-- A fixed field holds another value than R99 gives it (R100). -/
  | fixedField
  deriving DecidableEq, Repr

/-- The outcome of a fixed field check: `i` when the check holds (R100). -/
def checked (ok : Bool) (i : Instr) : Except Reject Instr :=
  if ok then .ok i else .error .fixedField

/-- A field marked "(N)" in R99 holds `noreg`. -/
def isN (field : BitVec 5) : Bool := field == 0x17#5

/-- `sh == 0` and `un == 0`: the R-format fields that must be zero outside the literal shifts (R100). -/
def shUnZero (w : Word) : Bool := shField w == 0#5 && unField w == 0#6

/-- The fixed fields of an R-format instruction without operands (R99: NOP, IRT, HLT). -/
def noOperands (w : Word) : Bool := isN (s1Field w) && isN (s2Field w) && isN (dField w) && shUnZero w

/-- SHL and SHR (spec/47_shift.md R225): `un == 0`, `d == s1`, and the form selected by `s2`. -/
def decodeShift (w : Word) (lit : Reg → BitVec 5 → Instr) (reg : Reg → Reg → Instr) : Except Reject Instr :=
  let common := unField w == 0#6 && dField w == s1Field w
  if isN (s2Field w) then
    checked common (lit (.ofBits (s1Field w)) (shField w))
  else
    checked (common && shField w == 0#5) (reg (.ofBits (s1Field w)) (.ofBits (s2Field w)))

/-- The instruction a word stands for (R95, R96, R99, R100). Opcodes 0x27 and 0x3E give the table's rows SEGMENT and DATA,
whose meaning is the Illegal Instruction of R104. -/
def decodeWord (w : Word) : Except Reject Instr :=
  let r1 := Reg.ofBits (s1Field w)
  let r2 := Reg.ofBits (s2Field w)
  let r3 := Reg.ofBits (dField w)
  let imm := immField w
  let n2 := isN (s2Field w)
  let n3 := isN (dField w)
  let z := shUnZero w
  match (opField w).toNat with
  | 0x00 => checked (noOperands w) .nop
  | 0x01 => checked (n2 && z) (.mov r1 r3)
  | 0x02 => checked (n2 && z) (.movs r1 r3)
  | 0x03 => .ok (.ldb r1 r2 imm)
  | 0x04 => .ok (.ldbs r1 r2 imm)
  | 0x05 => .ok (.ldh r1 r2 imm)
  | 0x06 => .ok (.ldhs r1 r2 imm)
  | 0x07 => .ok (.ldw r1 r2 imm)
  | 0x08 => .ok (.stb r1 r2 imm)
  | 0x09 => .ok (.sth r1 r2 imm)
  | 0x0A => .ok (.stw r1 r2 imm)
  | 0x0B => checked n2 (.lli r1 imm)
  | 0x0C => checked n2 (.lui r1 imm)
  | 0x0D => checked n2 (.jmp r1 imm)
  | 0x0E => checked n2 (.jeq r1 imm)
  | 0x0F => checked n2 (.jne r1 imm)
  | 0x10 => checked n2 (.jgt r1 imm)
  | 0x11 => checked n2 (.jge r1 imm)
  | 0x12 => checked n2 (.jlt r1 imm)
  | 0x13 => checked n2 (.jle r1 imm)
  | 0x14 => checked (n3 && z) (.cmp r1 r2)
  | 0x15 => checked (n2 && n3 && z) (.inc r1)
  | 0x16 => checked (n2 && n3 && z) (.dec r1)
  | 0x17 => decodeShift w .shlLit .shlReg
  | 0x18 => decodeShift w .shrLit .shrReg
  | 0x19 => checked z (.add r1 r2 r3)
  | 0x1A => checked z (.sub r1 r2 r3)
  | 0x1B => checked z (.and r1 r2 r3)
  | 0x1C => checked z (.or r1 r2 r3)
  | 0x1D => checked (n2 && z) (.not r1 r3)
  | 0x1E => checked z (.xor r1 r2 r3)
  | 0x1F => checked z (.nand r1 r2 r3)
  | 0x20 => checked z (.nor r1 r2 r3)
  | 0x21 => checked z (.xnor r1 r2 r3)
  | 0x22 => checked (isN (s1Field w) && n2) (.int imm)
  | 0x23 => checked (noOperands w) .irt
  | 0x24 => checked (noOperands w) .hlt
  | 0x25 => .ok (.iadd r1 r2 imm)
  | 0x26 => .ok (.isub r1 r2 imm)
  | 0x27 => .ok (.segment (restField w))
  | 0x3E => .ok (.data (restField w))
  | _ => .error .invalidOpcode

/-- Four bytes in memory order as a word, little-endian (spec/20_memory.md R62). -/
def wordOfBytes (b0 b1 b2 b3 : Byte) : Word := b3 ++ b2 ++ b1 ++ b0

/-- The instruction at the front of a run of bytes, lowest address first (R90). -/
def decode : List Byte → Except Reject Instr
  | b0 :: b1 :: b2 :: b3 :: _ => decodeWord (wordOfBytes b0 b1 b2 b3)
  | _ => .error .tooShort

/-! ## Encoding -/

/-- An R-format word (R91). -/
def encR (op : BitVec 6) (s1 s2 d sh : BitVec 5) (un : BitVec 6) : Word := op ++ s1 ++ s2 ++ d ++ sh ++ un

/-- An I-format word (R93). -/
def encI (op : BitVec 6) (s d : BitVec 5) (imm : BitVec 16) : Word := op ++ s ++ d ++ imm

/-- A word of which the spec gives the opcode only (spec/49_meta.md R250, R251). -/
def encMeta (op : BitVec 6) (rest : BitVec 26) : Word := op ++ rest

/-- `noreg` as a field value, the content of an unused register field (R92). -/
def fieldN : BitVec 5 := 0x17#5

/-- The instruction word of `i` (R99). -/
def encode : Instr → Word
  | .nop => encR 0x00 fieldN fieldN fieldN 0 0
  | .mov src dst => encR 0x01 src.toBits fieldN dst.toBits 0 0
  | .movs src dst => encR 0x02 src.toBits fieldN dst.toBits 0 0
  | .ldb base dst off => encI 0x03 base.toBits dst.toBits off
  | .ldbs base dst off => encI 0x04 base.toBits dst.toBits off
  | .ldh base dst off => encI 0x05 base.toBits dst.toBits off
  | .ldhs base dst off => encI 0x06 base.toBits dst.toBits off
  | .ldw base dst off => encI 0x07 base.toBits dst.toBits off
  | .stb src base off => encI 0x08 src.toBits base.toBits off
  | .sth src base off => encI 0x09 src.toBits base.toBits off
  | .stw src base off => encI 0x0A src.toBits base.toBits off
  | .lli dst value => encI 0x0B dst.toBits fieldN value
  | .lui dst value => encI 0x0C dst.toBits fieldN value
  | .jmp base off => encI 0x0D base.toBits fieldN off
  | .jeq base off => encI 0x0E base.toBits fieldN off
  | .jne base off => encI 0x0F base.toBits fieldN off
  | .jgt base off => encI 0x10 base.toBits fieldN off
  | .jge base off => encI 0x11 base.toBits fieldN off
  | .jlt base off => encI 0x12 base.toBits fieldN off
  | .jle base off => encI 0x13 base.toBits fieldN off
  | .cmp a b => encR 0x14 a.toBits b.toBits fieldN 0 0
  | .inc reg => encR 0x15 reg.toBits fieldN fieldN 0 0
  | .dec reg => encR 0x16 reg.toBits fieldN fieldN 0 0
  | .shlLit reg count => encR 0x17 reg.toBits fieldN reg.toBits count 0
  | .shlReg reg count => encR 0x17 reg.toBits count.toBits reg.toBits 0 0
  | .shrLit reg count => encR 0x18 reg.toBits fieldN reg.toBits count 0
  | .shrReg reg count => encR 0x18 reg.toBits count.toBits reg.toBits 0 0
  | .add a b dst => encR 0x19 a.toBits b.toBits dst.toBits 0 0
  | .sub a b dst => encR 0x1A a.toBits b.toBits dst.toBits 0 0
  | .and a b dst => encR 0x1B a.toBits b.toBits dst.toBits 0 0
  | .or a b dst => encR 0x1C a.toBits b.toBits dst.toBits 0 0
  | .not src dst => encR 0x1D src.toBits fieldN dst.toBits 0 0
  | .xor a b dst => encR 0x1E a.toBits b.toBits dst.toBits 0 0
  | .nand a b dst => encR 0x1F a.toBits b.toBits dst.toBits 0 0
  | .nor a b dst => encR 0x20 a.toBits b.toBits dst.toBits 0 0
  | .xnor a b dst => encR 0x21 a.toBits b.toBits dst.toBits 0 0
  | .int imm => encI 0x22 fieldN fieldN imm
  | .irt => encR 0x23 fieldN fieldN fieldN 0 0
  | .hlt => encR 0x24 fieldN fieldN fieldN 0 0
  | .iadd src dst lit => encI 0x25 src.toBits dst.toBits lit
  | .isub src dst lit => encI 0x26 src.toBits dst.toBits lit
  | .segment rest => encMeta 0x27 rest
  | .data rest => encMeta 0x3E rest

/-- Byte `k` of a word in little-endian order: bits 8k+7 to 8k (spec/20_memory.md R62). -/
def byteOf (v : Word) (k : Nat) : Byte := v.extractLsb' (8 * k) 8

/-- The four bytes of a word as they lie in memory, lowest address first (spec/20_memory.md R62). -/
def wordBytes (w : Word) : List Byte := [byteOf w 0, byteOf w 1, byteOf w 2, byteOf w 3]

/-- The word of an instruction whose low `nbits` bits are those of `w` and whose other bits are 0. -/
def tableWord (nbits w : Nat) : Word := BitVec.ofNat 32 (w % 2 ^ nbits)

/-- The instruction the decoder reads from the bytes of that word, laid out as memory holds them. -/
def decodeTableWord (nbits w : Nat) : Option Instr :=
  match decode (wordBytes (tableWord nbits w)) with
  | .ok i => some i
  | .error _ => none

end Sys2Proof
end

