-- ==== Sys2Proof/Config.lean ====
section
/-!
DEFINITION. What the spec leaves to the implementation (spec/00_scope.md R4, spec/92_eei_decisions.md, "Open parameters,
collected"). The three opaque constants have no body: nothing can be proved of their values, so a claim about the model
holds for every value they could have. The launch parameters (`INIT_REGS`, `RESET_PC`, `INIT_MODE`, the memory image,
`MAPPED`) are arguments of `State.launch`; the start address the reset launch takes is named here.
-/

namespace Sys2Proof.Config

/-- The OPEN parameter `movs_fn` (spec/40_data_movement.md R132, D13): the function of the source value alone that MOVS
applies. A free value, notes/assumptions/7.md. -/
opaque movsFn : Word → Word

/-- The OPEN parameter `KERNEL_STACK_ADDR` (spec/48_system.md R235, D20): the platform constant INT puts in `bpr`.
A free value, notes/assumptions/8.md. -/
opaque kernelStackAddr : Word

/-- The n-th draw of `undef()` (spec/10_state.md R48, D9): one bit the source calls undefined. A free value for every
`n`; the state counts the draws, so no draw is used twice. notes/assumptions/6.md. -/
opaque undefFlag : Nat → Bool

/-- `RESET_PC` of the reset launch. The spec leaves it OPEN (spec/10_state.md R54, spec/70_reset_and_hazards.md R301).
DESIGN CHOICE, unsafe: 0x00001000, the start address of the spec's own vectors. notes/assumptions/2.md. -/
def resetPc : Word := 0x00001000#32

end Sys2Proof.Config
end

