-- ==== Sys2Proof/Machine/State.lean ====
section
/-!
DEFINITION. The state of the machine (spec/10_state.md), the reasons a step can stop (spec/60_exceptions.md R261), the
launch and the state after reset (spec/10_state.md R54, spec/70_reset_and_hazards.md R300).
-/

namespace Sys2Proof.Machine

/-- The privilege mode (R50; spec/60_exceptions.md R276). -/
inductive Mode where
  | kernel
  | user
  deriving DecidableEq, Repr

/-- The saved execution context that INT fills and IRT restores (R51). -/
structure Ctx where
  /-- Whether a context is saved. -/
  valid : Bool
  /-- The `bpr` INT replaced. -/
  bpr : Word
  /-- The mode INT left. -/
  mode : Mode
  deriving DecidableEq, Repr

/-- The six flag bits of the status register `STS` (R45). Its bits 31 to 6 are 0 at boot, no instruction writes them, and
no instruction reads `STS` as a whole, so the six flags are all it holds: notes/assumptions/13.md. -/
structure Flags where
  /-- Equal, bit 0. -/
  eq : Bool
  /-- GreaterThan, bit 1. -/
  gt : Bool
  /-- GreaterThanOrEqual, bit 2. -/
  ge : Bool
  /-- LessThan, bit 3. -/
  lt : Bool
  /-- LessThanOrEqual, bit 4. -/
  le : Bool
  /-- Zero, bit 5. -/
  z : Bool
  deriving DecidableEq, Repr

/-- A run of byte addresses: `base` to `base + size - 1`. -/
structure Region where
  base : Nat
  size : Nat
  deriving DecidableEq, Repr

/-- Memory: the bytes that differ from what an unlisted address reads as, by strictly rising address. The operations and
the canonical form are in Machine/Ops.lean. -/
abbrev Memory := List Host.Cell

/-- The machine (R20 to R54). Between two instructions `pc` is the address of the instruction to execute next (R40), the
`cur` of the step that executes it (R41). -/
structure State where
  /-- The stored registers `x[0x00]` to `x[0x15]` (R20): `rg0` to `rgf`, `acc`, `spr`, `bpr`, `ret`, `idr`, `mmr`. -/
  x : Vector Word 22
  /-- The program counter (R40). -/
  pc : Word
  /-- The status register `STS` (R45). -/
  flags : Flags
  /-- The privilege mode (R50). -/
  mode : Mode
  /-- The saved execution context (R51). -/
  ctx : Ctx
  /-- Whether HLT has been executed (R52). -/
  halted : Bool
  /-- The memory (spec/20_memory.md R60). -/
  mem : Memory
  /-- The launch-fixed set `MAPPED` of the default `MemPermit` (spec/20_memory.md R70), as runs of addresses. -/
  mapped : List Region
  /-- The model's own: how many `undef()` bits have been drawn (R48). notes/assumptions/6.md. -/
  undefDraws : Nat
  deriving DecidableEq, Repr

/-- Why a step stops in a fault: one of the four exceptions, which change nothing and end the run
(spec/60_exceptions.md R260, R262), or the halted state. `cur` is the address of the instruction. -/
inductive Fault where
  /-- Illegal Instruction (R263), with the instruction word `w`. Raised by the decoder's checks and by the register checks
  of every instruction. Safe: the spec's terminal outcome, whatever hardware then does. -/
  | illegalInstruction (cur w : Word)
  /-- Protection Fault (R264), with the register index that caused it. Raised by the register checks. Safe, likewise. -/
  | protectionFault (cur : Word) (index : BitVec 5)
  /-- Alignment Fault (R265), with the misaligned address. Raised by fetches, loads, stores and INT's table read. Safe,
  likewise. -/
  | alignmentFault (cur addr : Word)
  /-- Memory Access Violation (R266), with the address. Raised by fetches, loads, stores and INT's table read. Safe,
  likewise. -/
  | memoryAccessViolation (cur addr : Word)
  /-- No step exists: HLT has been executed (spec/10_state.md R52). Raised by `step` alone. No exception. Safe: the
  halted state is terminal. notes/assumptions/10.md. -/
  | halted
  deriving DecidableEq, Repr

/-- Why a step is refused: the instruction has no meaning there (spec/60_exceptions.md R261). -/
inductive Refusal where
  /-- An arm of `exec` without a meaning. Raised by no arm of this model. Safe. -/
  | notModelled (mnemonic : String)
  /-- INT while a saved context is outstanding (R274, D22). Raised by INT. Safe. -/
  | intWhileContextSaved
  /-- IRT with no saved context (R273, D22). Raised by IRT. Safe. -/
  | irtWithoutContext
  deriving DecidableEq, Repr

/-- What the spec leaves to the launch (spec/10_state.md R54, spec/92_eei_decisions.md "Open parameters, collected"). -/
structure Launch where
  /-- `INIT_REGS`. -/
  regs : Vector Word 22
  /-- `RESET_PC`. -/
  pc : Word
  /-- `INIT_MODE`. -/
  mode : Mode
  /-- The memory image. -/
  mem : Memory
  /-- `MAPPED` (spec/20_memory.md R70). -/
  mapped : List Region
  deriving DecidableEq, Repr

/-- The state when execution starts under a launch (spec/10_state.md R54, spec/70_reset_and_hazards.md R300). The `bpr`
and `mode` of the context are meaningless while it is not valid. DESIGN CHOICE: notes/assumptions/3.md. -/
def State.launch (l : Launch) : State where
  x := l.regs
  pc := l.pc
  flags := { eq := false, gt := false, ge := false, lt := false, le := false, z := false }
  mode := l.mode
  ctx := { valid := false, bpr := 0, mode := .kernel }
  halted := false
  mem := l.mem
  mapped := l.mapped
  undefDraws := 0

/-- The launch the reset state takes: registers 0 (log 1), `RESET_PC` (log 2), Kernel mode (R54), no memory image (log 4),
every address mapped (log 5). DESIGN CHOICE where the spec gives no value. -/
def Launch.default : Launch where
  regs := Vector.replicate 22 0
  pc := Config.resetPc
  mode := .kernel
  mem := []
  mapped := [{ base := 0, size := 2 ^ 32 }]

/-- The machine right after reset. -/
def State.reset : State := State.launch Launch.default

/-- The outcome of a step. -/
abbrev Result := Host.Outcome State Fault Refusal

end Sys2Proof.Machine
end

