-- ==== Sys2Proof/Machine/Ops.lean ====
section
/-!
DEFINITION. The shared operations: extension (spec/00_scope.md R7), memory and its access primitives
(spec/20_memory.md R62 to R70), raising an exception (spec/60_exceptions.md R262), trap entry and trap return
(spec/60_exceptions.md R271 to R273).
-/

namespace Sys2Proof.Machine

/-! ## Extension (spec/00_scope.md R7) -/

/-- `sext_32` of a halfword: also the value of a signed immediate (spec/30_encoding.md R97). -/
def sext16 (v : BitVec 16) : Word := v.signExtend 32
/-- `zext_32` of a halfword. -/
def zext16 (v : BitVec 16) : Word := v.setWidth 32
/-- `sext_32` of a byte. -/
def sext8 (v : Byte) : Word := v.signExtend 32
/-- `zext_32` of a byte. -/
def zext8 (v : Byte) : Word := v.setWidth 32

/-! ## Memory as an array of bytes -/

/-- What an address that memory does not list reads as. The spec leaves memory outside the launch image open. DESIGN
CHOICE, unsafe: notes/assumptions/4.md. -/
def Memory.unlisted : Byte := 0

/-- The canonical form: addresses of the 2^32-byte space (R60) strictly rising, and no entry that says what an unlisted
address says anyway. -/
abbrev Memory.wf (m : Memory) : Prop :=
  m.Pairwise (fun c d => c.1 < d.1) ∧ ∀ c ∈ m, c.1 < 2 ^ 32 ∧ c.2 ≠ Memory.unlisted

/-- `mem[a]`: the byte at an address. -/
def Memory.get : Memory → Nat → Byte
  | [], _ => Memory.unlisted
  | (b, v) :: m, a => if b < a then Memory.get m a else if b = a then v else Memory.unlisted

/-- `mem[a] <- v`: the entries below `a`, an entry for `a` unless an unlisted address reads as `v`, the entries above. -/
def Memory.set (m : Memory) (a : Nat) (v : Byte) : Memory :=
  m.takeWhile (fun c => c.1 < a) ++ (if v = Memory.unlisted then [] else [(a, v)]) ++ m.dropWhile (fun c => c.1 ≤ a)

/-- The address of byte `k` of an access at `addr`, modulo 2^32 (D25). An aligned access never wraps (R66). -/
def byteAddr (addr : Word) (k : Nat) : Nat := (addr + BitVec.ofNat 32 k).toNat

/-! ## The access primitives (spec/20_memory.md R66 to R68) -/

/-- The three access widths (R72). -/
inductive Size where
  | byte
  | half
  | word
  deriving DecidableEq, Repr

/-- The width in bytes: the `n` of `MemRead(addr, n)`. -/
def Size.bytes : Size → Nat
  | .byte => 1
  | .half => 2
  | .word => 4

/-- What an access is for (R70). -/
inductive AccessKind where
  | fetch
  | read
  | write
  deriving DecidableEq, Repr

/-- The bytes of an access as one little-endian value, zero above its width (R62, R64). -/
def Memory.load (m : Memory) (addr : Word) : Size → Word
  | .byte => zext8 (m.get (byteAddr addr 0))
  | .half => zext16 (m.get (byteAddr addr 1) ++ m.get (byteAddr addr 0))
  | .word => wordOfBytes (m.get (byteAddr addr 0)) (m.get (byteAddr addr 1)) (m.get (byteAddr addr 2))
      (m.get (byteAddr addr 3))

/-- `mem[addr+k] <- v[8k+7 : 8k]` for the `n` lowest bytes of `v` (R67). -/
def Memory.store (m : Memory) (addr v : Word) : Nat → Memory
  | 0 => m
  | k + 1 => (Memory.store m addr v k).set (byteAddr addr k) (byteOf v k)

/-- The alignment test (R65): `addr[0] = 0` for a halfword, `addr[1:0] = 0` for a word. -/
def aligned (addr : Word) (sz : Size) : Bool := addr.toNat % sz.bytes == 0

/-- Whether a byte address lies in a region. -/
def Region.contains (r : Region) (a : Nat) : Bool := decide (r.base ≤ a) && decide (a < r.base + r.size)

/-- `MemPermit(state, kind, addr, n)` with its decided default (R70, D26): every byte of the access is in `MAPPED`, in
either mode, for every kind, whatever `mmr` holds. notes/assumptions/5.md. -/
def memPermit (s : State) (_kind : AccessKind) (addr : Word) (sz : Size) : Bool :=
  (List.range sz.bytes).all fun k => s.mapped.any fun r => r.contains (byteAddr addr k)

/-- The exception an access raises, if any: alignment first, then permission (R66 to R68, D7). -/
def accessFault (s : State) (kind : AccessKind) (addr : Word) (sz : Size) : Option Fault :=
  if aligned addr sz then
    if memPermit s kind addr sz then none else some (.memoryAccessViolation s.pc addr)
  else some (.alignmentFault s.pc addr)

/-- `MemRead(addr, n)` (R66). -/
def memRead (s : State) (addr : Word) (sz : Size) : Except Fault Word :=
  match accessFault s .read addr sz with
  | some f => .error f
  | none => .ok (s.mem.load addr sz)

/-- `MemWrite(addr, n, v)` (R67). -/
def memWrite (s : State) (addr : Word) (sz : Size) (v : Word) : Except Fault State :=
  match accessFault s .write addr sz with
  | some f => .error f
  | none => .ok { s with mem := s.mem.store addr v sz.bytes }

/-- `Fetch(cur)` (R68), `cur` being the `pc` of the state. -/
def fetch (s : State) : Except Fault Word :=
  match accessFault s .fetch s.pc .word with
  | some f => .error f
  | none => .ok (s.mem.load s.pc .word)

/-! ## The program counter (spec/10_state.md R41, R42) -/

/-- The `pc` while the instruction at `s.pc` executes: `cur + 4` modulo 2^32 (R41, D1). -/
def nextPc (s : State) : Word := s.pc + 4

/-- Leaves `pc = cur + 4` (R42). -/
def State.advance (s : State) : State := { s with pc := nextPc s }

/-! ## Exceptions (spec/60_exceptions.md R262) -/

/-- `raise`: the instruction is abandoned with no change of state and the run ends (D6). The state left is the state the
step started from, so the outcome carries the record only. notes/assumptions/9.md. -/
def raise (f : Fault) : Result := .fault f

/-- Goes on with the value of a primitive, or raises the exception it raised. -/
def attempt {α : Type} (e : Except Fault α) (k : α → Result) : Result :=
  match e with
  | .ok a => k a
  | .error f => raise f

/-- The exception of a word the decoder rejects: Illegal Instruction (spec/30_encoding.md R100, R104). -/
def rejected (s : State) (w : Word) (_why : Reject) : Fault := .illegalInstruction s.pc w

/-- Why no step exists in this state, if so (spec/10_state.md R52). -/
def stopped (s : State) : Option Fault := if s.halted then some .halted else none

/-! ## Trap entry and trap return (spec/60_exceptions.md R271 to R273) -/

/-- The stored register `ret`. -/
def retIndex : Fin 22 := 0x13
/-- The stored register `bpr`. -/
def bprIndex : Fin 22 := 0x12
/-- The stored register `idr`. -/
def idrIndex : Fin 22 := 0x14

/-- `x[i]`: the stored value of register index `i` (spec/10_state.md R20). -/
def State.getX (s : State) (i : Fin 22) : Word := s.x.get i

/-- `x[i] <- v`. -/
def State.setX (s : State) (i : Fin 22) (v : Word) : State := { s with x := s.x.set i.val v }

/-- The interrupt code of INT: `imm[7:0]`; `imm[15:8]` is ignored (spec/48_system.md R235, D18). -/
def intCode (imm : BitVec 16) : BitVec 8 := imm.extractLsb' 0 8

/-- The address of the interrupt descriptor table entry of a code: `idr + 4 * code` modulo 2^32
(spec/60_exceptions.md R272, D19). -/
def idtEntry (s : State) (code : BitVec 8) : Word := s.getX idrIndex + 4 * code.setWidth 32

/-- The table read of INT: an aligned 4-byte read made as Kernel, whatever the mode (R272, D19). -/
def readHandler (s : State) (code : BitVec 8) : Except Fault Word :=
  memRead { s with mode := .kernel } (idtEntry s code) .word

/-- Trap entry (R271): `ret` receives `cur + 4`, the context saves `bpr` and the mode, `bpr` receives the kernel stack
address, the mode becomes Kernel, and the handler runs next. -/
def trapEntry (s : State) (handler : Word) : State :=
  { (s.setX retIndex (nextPc s)).setX bprIndex Config.kernelStackAddr with
    ctx := { valid := true, bpr := s.getX bprIndex, mode := s.mode }
    mode := .kernel
    pc := handler }

/-- Trap return (R273): `bpr` and the mode come back from the context, which is no longer valid, and the address in `ret`
runs next. -/
def trapReturn (s : State) : State :=
  { s.setX bprIndex s.ctx.bpr with
    ctx := { s.ctx with valid := false }
    mode := s.ctx.mode
    pc := s.getX retIndex }

end Sys2Proof.Machine
end

