-- ==== Sys2Proof/Machine/Operands.lean ====
section
/-!
DEFINITION. Operand access (spec/10_state.md R20 to R36): what a register index reads as and what a write to it does, the
fault checks of both, and the order an instruction makes them in.
-/

namespace Sys2Proof.Machine

/-! ## The fault tests of `RegRead` and `RegWrite` (R33, R34) -/

/-- The indices that raise Illegal Instruction, read or written: `noreg`, the internal and the reserved ones
(R27 to R29, D4). -/
def illegalOperand : Reg → Bool
  | .stored _ => false
  | .zero => false
  | .noreg => true
  | .internal _ => true
  | .pcx => false
  | .reserved _ => true

/-- `idr` and `mmr` (R24, R25). -/
def privileged (r : Reg) : Bool := r == .idr || r == .mmr

/-- The Protection Fault case of `RegRead` (R33). -/
def readProtected (s : State) (r : Reg) : Bool := s.mode == .user && privileged r

/-- The Protection Fault cases of `RegWrite` (R34). -/
def writeProtected (s : State) (r : Reg) : Bool := readProtected s r || r == .pcx

/-- One use of a register field: the instruction reads it, or writes it. -/
inductive Use where
  | read (r : Reg)
  | write (r : Reg)
  deriving DecidableEq, Repr

/-- The index a use names. -/
def Use.reg : Use → Reg
  | .read r => r
  | .write r => r

/-- Whether a use raises Protection Fault. -/
def Use.protected (s : State) : Use → Bool
  | .read r => readProtected s r
  | .write r => writeProtected s r

/-- `CheckRead` passes. -/
def readable (s : State) (r : Reg) : Bool := !illegalOperand r && !readProtected s r

/-- `CheckWrite` passes. -/
def writable (s : State) (r : Reg) : Bool := !illegalOperand r && !writeProtected s r

/-- The register checks of an instruction with word `w` (R35, D7): the Illegal Instruction cases of every use first, then
the Protection Fault cases, the uses listed in the order of their fields. -/
def checkUses (s : State) (w : Word) (uses : List Use) : Option Fault :=
  if uses.any (fun u => illegalOperand u.reg) then some (.illegalInstruction s.pc w)
  else (uses.find? (fun u => u.protected s)).map fun u => .protectionFault s.pc u.reg.toBits

/-- Runs the register checks of `i`, then goes on: every check comes before every change (R35). -/
def execute (i : Instr) (uses : List Use) (s : State) (r : Result) : Result :=
  match checkUses s (encode i) uses with
  | some f => raise f
  | none => r

/-! ## The accesses of `RegRead` and `RegWrite` (R33, R34), once the checks have passed -/

/-- What a register index reads as: `pcx` reads as `cur + 4` (D1), `zero` as 0. An index that raises has no value; 0 stands
there and no instruction uses it. -/
def regRead (s : State) : Reg → Word
  | .stored i => s.getX i
  | .zero => 0
  | .noreg => 0
  | .internal _ => 0
  | .pcx => nextPc s
  | .reserved _ => 0

/-- What a write to a register index does: a write to `zero` is discarded (R26). An index that raises is never written. -/
def regWrite (s : State) (r : Reg) (v : Word) : State :=
  match r with
  | .stored i => s.setX i v
  | .zero => s
  | .noreg => s
  | .internal _ => s
  | .pcx => s
  | .reserved _ => s

/-- The effective address of a load or a store: base plus signed offset modulo 2^32 (spec/20_memory.md R69); also the
target of a jump (spec/43_jump_branch.md R170). -/
def effAddr (s : State) (base : Reg) (off : BitVec 16) : Word := regRead s base + sext16 off

end Sys2Proof.Machine
end

