-- ==== Sys2Proof/Machine/Flags.lean ====
section
/-!
DEFINITION. The status register (spec/10_state.md R45 to R48): reading a flag, writing the six flags, and the two ways
instructions compute them.
-/

namespace Sys2Proof.Machine

/-! ## The status register as a word (R45) -/

/-- Bits 5 to 0 of `STS`, Zero highest and Equal lowest. -/
def flagBits (f : Flags) : BitVec 6 :=
  BitVec.ofBool f.z ++ BitVec.ofBool f.le ++ BitVec.ofBool f.lt ++ BitVec.ofBool f.ge ++ BitVec.ofBool f.gt ++
    BitVec.ofBool f.eq

/-- `STS`: the six flags, below 26 reserved bits that are always 0. -/
def State.sts (s : State) : Word := 0#26 ++ flagBits s.flags

/-- Writes the six flags. -/
def State.setFlags (s : State) (eq gt ge lt le z : Bool) : State :=
  { s with flags := { eq := eq, gt := gt, ge := ge, lt := lt, le := le, z := z } }

/-! ## The flag computations (R46) -/

/-- CMP (spec/44_compare.md R190): an exact comparison of the two's-complement values. -/
def setCompareFlags (s : State) (a b : Word) : State :=
  s.setFlags (a == b) (decide (b.toInt < a.toInt)) (decide (b.toInt ≤ a.toInt)) (decide (a.toInt < b.toInt))
    (decide (a.toInt ≤ b.toInt)) (a == b)

/-- Arithmetic, logic, shifts, MOV and MOVS (R46): `Z` from the result; each comparison flag a fresh draw of `undef()`
(R48, D8, D9). notes/assumptions/6.md. -/
def setResultFlags (s : State) (result : Word) : State :=
  { s.setFlags (Config.undefFlag s.undefDraws) (Config.undefFlag (s.undefDraws + 1))
      (Config.undefFlag (s.undefDraws + 2)) (Config.undefFlag (s.undefDraws + 3))
      (Config.undefFlag (s.undefDraws + 4)) (result == 0) with
    undefDraws := s.undefDraws + 5 }

/-! ## Completing an instruction -/

/-- Writes a result to its destination, writes the flags from it, and advances: the shared end of arithmetic, logic,
shifts, MOV and MOVS. The flags come from the result even where the write is discarded (R26, R46). -/
def finishResult (dst : Reg) (result : Word) (s : State) : Result :=
  .next (setResultFlags (regWrite s dst result) result).advance

end Sys2Proof.Machine
end

