-- ==== Sys2Proof/Machine/Arithmetic.lean ====
section
/-!
DEFINITION. INC, DEC, ADD, SUB, IADD, ISUB (spec/45_arithmetic.md R195 to R201). All arithmetic is modulo 2^32.
-/

namespace Sys2Proof.Machine

/-- INC (R196): the register is read and written. -/
def execInc (reg : Reg) (s : State) : Result :=
  execute (.inc reg) [.read reg, .write reg] s (finishResult reg (regRead s reg + 1) s)

/-- DEC (R197): the register is read and written. -/
def execDec (reg : Reg) (s : State) : Result :=
  execute (.dec reg) [.read reg, .write reg] s (finishResult reg (regRead s reg - 1) s)

/-- ADD (R198). -/
def execAdd (a b dst : Reg) (s : State) : Result :=
  execute (.add a b dst) [.read a, .read b, .write dst] s (finishResult dst (regRead s a + regRead s b) s)

/-- SUB (R199). -/
def execSub (a b dst : Reg) (s : State) : Result :=
  execute (.sub a b dst) [.read a, .read b, .write dst] s (finishResult dst (regRead s a - regRead s b) s)

/-- IADD (R200). -/
def execIadd (src dst : Reg) (lit : BitVec 16) (s : State) : Result :=
  execute (.iadd src dst lit) [.read src, .write dst] s (finishResult dst (regRead s src + sext16 lit) s)

/-- ISUB (R201). -/
def execIsub (src dst : Reg) (lit : BitVec 16) (s : State) : Result :=
  execute (.isub src dst lit) [.read src, .write dst] s (finishResult dst (regRead s src - sext16 lit) s)

end Sys2Proof.Machine
end

