-- ==== Sys2Proof/Machine/Compare.lean ====
section
/-!
DEFINITION. CMP (spec/44_compare.md R190).
-/

namespace Sys2Proof.Machine

/-- CMP (R190): all six flags from the signed comparison; no register is written. -/
def execCmp (a b : Reg) (s : State) : Result :=
  execute (.cmp a b) [.read a, .read b] s <| .next (setCompareFlags s (regRead s a) (regRead s b)).advance

end Sys2Proof.Machine
end

