-- ==== Sys2Proof/Machine/DataMovement.lean ====
section
/-!
DEFINITION. NOP, MOV, MOVS (spec/40_data_movement.md R130 to R132).
-/

namespace Sys2Proof.Machine

/-- NOP (R130): only `pc` moves on. -/
def execNop (s : State) : Result := .next s.advance

/-- MOV (R131). -/
def execMov (src dst : Reg) (s : State) : Result :=
  execute (.mov src dst) [.read src, .write dst] s (finishResult dst (regRead s src) s)

/-- MOVS (R132): the result is the OPEN `movs_fn` of the source value (D13). notes/assumptions/7.md. -/
def execMovs (src dst : Reg) (s : State) : Result :=
  execute (.movs src dst) [.read src, .write dst] s (finishResult dst (Config.movsFn (regRead s src)) s)

end Sys2Proof.Machine
end

