-- ==== Sys2Proof/Machine/ImmediateLoad.lean ====
section
/-!
DEFINITION. LLI and LUI (spec/42_immediate_load.md R160, R161).
-/

namespace Sys2Proof.Machine

/-- LLI (R160): the value zero-extended; the old value is not read and no flag is written. -/
def execLli (dst : Reg) (value : BitVec 16) (s : State) : Result :=
  execute (.lli dst value) [.write dst] s <| .next (regWrite s dst (zext16 value)).advance

/-- LUI (R161): the value in bits 31:16, the old bits 15:0 kept; no flag is written. -/
def execLui (dst : Reg) (value : BitVec 16) (s : State) : Result :=
  execute (.lui dst value) [.read dst, .write dst] s <|
    .next (regWrite s dst (value ++ (regRead s dst).setWidth 16)).advance

end Sys2Proof.Machine
end

