-- ==== Sys2Proof/Machine/Jump.lean ====
section
/-!
DEFINITION. The seven jumps (spec/43_jump_branch.md R170 to R177). No word decodes as the J format (R178).
-/

namespace Sys2Proof.Machine

/-- The shared shape of the jumps (R170): the base register is checked whether or not the jump is taken; the target is
not checked for alignment. -/
def jumpIf (i : Instr) (cond : Bool) (base : Reg) (off : BitVec 16) (s : State) : Result :=
  execute i [.read base] s <| .next (if cond then { s with pc := effAddr s base off } else s.advance)

/-- JMP (R171). -/
def execJmp (base : Reg) (off : BitVec 16) (s : State) : Result := jumpIf (.jmp base off) true base off s

/-- JEQ (R172). -/
def execJeq (base : Reg) (off : BitVec 16) (s : State) : Result := jumpIf (.jeq base off) s.flags.eq base off s

/-- JNE (R173). -/
def execJne (base : Reg) (off : BitVec 16) (s : State) : Result := jumpIf (.jne base off) (!s.flags.eq) base off s

/-- JGT (R174). -/
def execJgt (base : Reg) (off : BitVec 16) (s : State) : Result := jumpIf (.jgt base off) s.flags.gt base off s

/-- JGE (R175): the GreaterThan flag or the Equal flag (D12). -/
def execJge (base : Reg) (off : BitVec 16) (s : State) : Result := jumpIf (.jge base off) (s.flags.gt || s.flags.eq) base off s

/-- JLT (R176). -/
def execJlt (base : Reg) (off : BitVec 16) (s : State) : Result := jumpIf (.jlt base off) s.flags.lt base off s

/-- JLE (R177): the LessThan flag or the Equal flag (D12). -/
def execJle (base : Reg) (off : BitVec 16) (s : State) : Result := jumpIf (.jle base off) (s.flags.lt || s.flags.eq) base off s

end Sys2Proof.Machine
end

