-- ==== Sys2Proof/Machine/LoadStore.lean ====
section
/-!
DEFINITION. The five loads and the three stores (spec/41_load_store.md R140 to R149).
-/

namespace Sys2Proof.Machine

/-- The shared shape of the loads (R140): `ext` extends the value read. No flag is written. -/
def loadWith (i : Instr) (base dst : Reg) (off : BitVec 16) (sz : Size) (ext : Word → Word) (s : State) : Result :=
  execute i [.read base, .write dst] s <|
    attempt (memRead s (effAddr s base off) sz) fun v => .next (regWrite s dst (ext v)).advance

/-- LDB (R141): zero-extended byte. -/
def execLdb (base dst : Reg) (off : BitVec 16) (s : State) : Result :=
  loadWith (.ldb base dst off) base dst off .byte (fun v => zext8 (v.setWidth 8)) s

/-- LDBS (R142): sign-extended byte. -/
def execLdbs (base dst : Reg) (off : BitVec 16) (s : State) : Result :=
  loadWith (.ldbs base dst off) base dst off .byte (fun v => sext8 (v.setWidth 8)) s

/-- LDH (R143): zero-extended halfword. -/
def execLdh (base dst : Reg) (off : BitVec 16) (s : State) : Result :=
  loadWith (.ldh base dst off) base dst off .half (fun v => zext16 (v.setWidth 16)) s

/-- LDHS (R144): sign-extended halfword. -/
def execLdhs (base dst : Reg) (off : BitVec 16) (s : State) : Result :=
  loadWith (.ldhs base dst off) base dst off .half (fun v => sext16 (v.setWidth 16)) s

/-- LDW (R145). -/
def execLdw (base dst : Reg) (off : BitVec 16) (s : State) : Result :=
  loadWith (.ldw base dst off) base dst off .word (fun v => v) s

/-- The shared shape of the stores (R146): both fields are read, no register and no flag is written. -/
def storeWith (i : Instr) (src base : Reg) (off : BitVec 16) (sz : Size) (s : State) : Result :=
  execute i [.read src, .read base] s <|
    attempt (memWrite s (effAddr s base off) sz (regRead s src)) fun t => .next t.advance

/-- STB (R147). -/
def execStb (src base : Reg) (off : BitVec 16) (s : State) : Result :=
  storeWith (.stb src base off) src base off .byte s

/-- STH (R148). -/
def execSth (src base : Reg) (off : BitVec 16) (s : State) : Result :=
  storeWith (.sth src base off) src base off .half s

/-- STW (R149). -/
def execStw (src base : Reg) (off : BitVec 16) (s : State) : Result :=
  storeWith (.stw src base off) src base off .word s

end Sys2Proof.Machine
end

