-- ==== Sys2Proof/Machine/Logical.lean ====
section
/-!
DEFINITION. AND, OR, NOT, XOR, NAND, NOR, XNOR (spec/46_logical.md R210 to R217).
-/

namespace Sys2Proof.Machine

/-- The shared shape of the six two-operand instructions (R210). -/
def logicWith (i : Instr) (f : Word → Word → Word) (a b dst : Reg) (s : State) : Result :=
  execute i [.read a, .read b, .write dst] s (finishResult dst (f (regRead s a) (regRead s b)) s)

/-- AND (R211). -/
def execAnd (a b dst : Reg) (s : State) : Result := logicWith (.and a b dst) (fun p q => p &&& q) a b dst s

/-- OR (R212). -/
def execOr (a b dst : Reg) (s : State) : Result := logicWith (.or a b dst) (fun p q => p ||| q) a b dst s

/-- NOT (R213). -/
def execNot (src dst : Reg) (s : State) : Result :=
  execute (.not src dst) [.read src, .write dst] s (finishResult dst (~~~ regRead s src) s)

/-- XOR (R214). -/
def execXor (a b dst : Reg) (s : State) : Result := logicWith (.xor a b dst) (fun p q => p ^^^ q) a b dst s

/-- NAND (R215). -/
def execNand (a b dst : Reg) (s : State) : Result := logicWith (.nand a b dst) (fun p q => ~~~(p &&& q)) a b dst s

/-- NOR (R216). -/
def execNor (a b dst : Reg) (s : State) : Result := logicWith (.nor a b dst) (fun p q => ~~~(p ||| q)) a b dst s

/-- XNOR (R217). -/
def execXnor (a b dst : Reg) (s : State) : Result := logicWith (.xnor a b dst) (fun p q => ~~~(p ^^^ q)) a b dst s

end Sys2Proof.Machine
end

