-- ==== Sys2Proof/Machine/Meta.lean ====
section
/-!
DEFINITION. The meta opcodes SEGMENT and DATA (spec/49_meta.md R250, R251): a fetched word with either opcode is no
processor instruction and raises Illegal Instruction, always (D32). notes/assumptions/11.md.
-/

namespace Sys2Proof.Machine

/-- SEGMENT (R250). -/
def execSegment (rest : BitVec 26) (s : State) : Result := raise (.illegalInstruction s.pc (encode (.segment rest)))

/-- DATA (R251). -/
def execData (rest : BitVec 26) (s : State) : Result := raise (.illegalInstruction s.pc (encode (.data rest)))

end Sys2Proof.Machine
end

