-- ==== Sys2Proof/Machine/Shift.lean ====
section
/-!
DEFINITION. SHL and SHR, literal and register form (spec/47_shift.md R225 to R227). The register is shifted in place: it
stands in bits 25-21 and again, as the destination, in bits 15-11.
-/

namespace Sys2Proof.Machine

/-- The literal form (R225): the count is the ShiftAmt field. -/
def shiftLit (i : Instr) (f : Word → Nat → Word) (reg : Reg) (count : BitVec 5) (s : State) : Result :=
  execute i [.read reg, .write reg] s (finishResult reg (f (regRead s reg) count.toNat) s)

/-- The register form (R225): the count is the low 5 bits of the count register. -/
def shiftReg (i : Instr) (f : Word → Nat → Word) (reg count : Reg) (s : State) : Result :=
  execute i [.read reg, .read count, .write reg] s
    (finishResult reg (f (regRead s reg) ((regRead s count).setWidth 5).toNat) s)

/-- SHL, literal form (R226): zero fill from the right. -/
def execShlLit (reg : Reg) (count : BitVec 5) (s : State) : Result :=
  shiftLit (.shlLit reg count) (fun v n => v <<< n) reg count s

/-- SHL, register form (R226). -/
def execShlReg (reg count : Reg) (s : State) : Result :=
  shiftReg (.shlReg reg count) (fun v n => v <<< n) reg count s

/-- SHR, literal form (R227): zero fill from the left. -/
def execShrLit (reg : Reg) (count : BitVec 5) (s : State) : Result :=
  shiftLit (.shrLit reg count) (fun v n => v >>> n) reg count s

/-- SHR, register form (R227). -/
def execShrReg (reg count : Reg) (s : State) : Result :=
  shiftReg (.shrReg reg count) (fun v n => v >>> n) reg count s

end Sys2Proof.Machine
end

