-- ==== Sys2Proof/Machine/System.lean ====
section
/-!
DEFINITION. INT, IRT, HLT (spec/48_system.md R235 to R237). None is privileged (D23), and none reads or writes a flag.
-/

namespace Sys2Proof.Machine

/-- INT (R235): refused while a saved context is outstanding (D22); else the table read, which may raise, and then the
trap entry. notes/assumptions/12.md. -/
def execInt (imm : BitVec 16) (s : State) : Result :=
  if s.ctx.valid then .refused .intWhileContextSaved
  else attempt (readHandler s (intCode imm)) fun handler => .next (trapEntry s handler)

/-- IRT (R236): refused when there is no saved context (D22); else the trap return. notes/assumptions/12.md. -/
def execIrt (s : State) : Result :=
  if s.ctx.valid then .next (trapReturn s) else .refused .irtWithoutContext

/-- HLT (R237): the processor is halted, with `pc` after the HLT. -/
def execHlt (s : State) : Result := .next { s.advance with halted := true }

end Sys2Proof.Machine
end

