-- ==== Sys2Proof/Machine/Dispatch.lean ====
section
/-!
DEFINITION. The meaning of every instruction, one arm per constructor. `exec i s` is the execute part of the step at
`s.pc` (spec/10_state.md R41): `s.pc` is the address of the executing instruction.
-/

namespace Sys2Proof.Machine

def exec (i : Instr) (s : State) : Host.Outcome State Fault Refusal :=
  match i with
  | .nop => Sys2Proof.Machine.execNop s
  | .mov src dst => Sys2Proof.Machine.execMov src dst s
  | .movs src dst => Sys2Proof.Machine.execMovs src dst s
  | .ldb base dst off => Sys2Proof.Machine.execLdb base dst off s
  | .ldbs base dst off => Sys2Proof.Machine.execLdbs base dst off s
  | .ldh base dst off => Sys2Proof.Machine.execLdh base dst off s
  | .ldhs base dst off => Sys2Proof.Machine.execLdhs base dst off s
  | .ldw base dst off => Sys2Proof.Machine.execLdw base dst off s
  | .stb src base off => Sys2Proof.Machine.execStb src base off s
  | .sth src base off => Sys2Proof.Machine.execSth src base off s
  | .stw src base off => Sys2Proof.Machine.execStw src base off s
  | .lli dst value => Sys2Proof.Machine.execLli dst value s
  | .lui dst value => Sys2Proof.Machine.execLui dst value s
  | .jmp base off => Sys2Proof.Machine.execJmp base off s
  | .jeq base off => Sys2Proof.Machine.execJeq base off s
  | .jne base off => Sys2Proof.Machine.execJne base off s
  | .jgt base off => Sys2Proof.Machine.execJgt base off s
  | .jge base off => Sys2Proof.Machine.execJge base off s
  | .jlt base off => Sys2Proof.Machine.execJlt base off s
  | .jle base off => Sys2Proof.Machine.execJle base off s
  | .cmp a b => Sys2Proof.Machine.execCmp a b s
  | .inc reg => Sys2Proof.Machine.execInc reg s
  | .dec reg => Sys2Proof.Machine.execDec reg s
  | .shlLit reg count => Sys2Proof.Machine.execShlLit reg count s
  | .shlReg reg count => Sys2Proof.Machine.execShlReg reg count s
  | .shrLit reg count => Sys2Proof.Machine.execShrLit reg count s
  | .shrReg reg count => Sys2Proof.Machine.execShrReg reg count s
  | .add a b dst => Sys2Proof.Machine.execAdd a b dst s
  | .sub a b dst => Sys2Proof.Machine.execSub a b dst s
  | .and a b dst => Sys2Proof.Machine.execAnd a b dst s
  | .or a b dst => Sys2Proof.Machine.execOr a b dst s
  | .not src dst => Sys2Proof.Machine.execNot src dst s
  | .xor a b dst => Sys2Proof.Machine.execXor a b dst s
  | .nand a b dst => Sys2Proof.Machine.execNand a b dst s
  | .nor a b dst => Sys2Proof.Machine.execNor a b dst s
  | .xnor a b dst => Sys2Proof.Machine.execXnor a b dst s
  | .int imm => Sys2Proof.Machine.execInt imm s
  | .irt => Sys2Proof.Machine.execIrt s
  | .hlt => Sys2Proof.Machine.execHlt s
  | .iadd src dst lit => Sys2Proof.Machine.execIadd src dst lit s
  | .isub src dst lit => Sys2Proof.Machine.execIsub src dst lit s
  | .segment rest => Sys2Proof.Machine.execSegment rest s
  | .data rest => Sys2Proof.Machine.execData rest s

end Sys2Proof.Machine
end

