-- ==== Sys2Proof/Machine/Step.lean ====
section
/-!
DEFINITION. One step (spec/10_state.md R41): fetch at `pc`, decode, execute. And the placing of an instruction where the
next step fetches it.
-/

namespace Sys2Proof.Machine

/-- One step (R41). No step exists once the machine is halted (R52). -/
def step (s : State) : Host.Outcome State Fault Refusal :=
  match stopped s with
  | some f => .fault f
  | none =>
    match fetch s with
    | .error f => .fault f
    | .ok w =>
      match decodeWord w with
      | .error why => .fault (rejected s w why)
      | .ok i => exec i s

/-- `s` with the instruction of the low `nbits` bits of `w` stored, little-endian, at `pc`. Nothing else changes: in a
running state whose `pc` is aligned and mapped, as after reset, the next step fetches and runs it. The store stands for
the load of a program from outside the machine, notes/assumptions/14.md. -/
def State.withFetchWord (s : State) (nbits w : Nat) : State :=
  { s with mem := s.mem.store s.pc (tableWord nbits w) 4 }

end Sys2Proof.Machine
end

