-- ==== Sys2Proof/Safety.lean ====
section
/-!
DEFINITION. The terms claims are stated in: which register fields an instruction reads and writes and which kind it is,
read from the spec's tables (spec/30_encoding.md R99, spec/10_state.md R46), what a step may leave unchanged, and the
invariants. Nothing here is used by the machine.
-/

namespace Sys2Proof

/-- The register fields an instruction reads (spec/30_encoding.md R99), in the order of the word. -/
def Instr.reads : Instr → List Reg
  | .nop | .irt | .hlt | .int _ | .segment _ | .data _ => []
  | .lli _ _ => []
  | .mov src _ | .movs src _ | .not src _ | .iadd src _ _ | .isub src _ _ => [src]
  | .ldb base _ _ | .ldbs base _ _ | .ldh base _ _ | .ldhs base _ _ | .ldw base _ _ => [base]
  | .stb src base _ | .sth src base _ | .stw src base _ => [src, base]
  | .lui dst _ => [dst]
  | .jmp base _ | .jeq base _ | .jne base _ | .jgt base _ | .jge base _ | .jlt base _ | .jle base _ => [base]
  | .cmp a b => [a, b]
  | .inc reg | .dec reg | .shlLit reg _ | .shrLit reg _ => [reg]
  | .shlReg reg count | .shrReg reg count => [reg, count]
  | .add a b _ | .sub a b _ | .and a b _ | .or a b _ | .xor a b _ | .nand a b _ | .nor a b _ | .xnor a b _ => [a, b]

/-- The register field an instruction writes, if it writes one (spec/30_encoding.md R99). -/
def Instr.writes : Instr → Option Reg
  | .nop | .irt | .hlt | .int _ | .segment _ | .data _ => none
  | .stb _ _ _ | .sth _ _ _ | .stw _ _ _ | .cmp _ _ => none
  | .jmp _ _ | .jeq _ _ | .jne _ _ | .jgt _ _ | .jge _ _ | .jlt _ _ | .jle _ _ => none
  | .mov _ dst | .movs _ dst | .not _ dst | .iadd _ dst _ | .isub _ dst _ => some dst
  | .ldb _ dst _ | .ldbs _ dst _ | .ldh _ dst _ | .ldhs _ dst _ | .ldw _ dst _ => some dst
  | .lli dst _ | .lui dst _ => some dst
  | .inc reg | .dec reg | .shlLit reg _ | .shrLit reg _ | .shlReg reg _ | .shrReg reg _ => some reg
  | .add _ _ dst | .sub _ _ dst | .and _ _ dst | .or _ _ dst | .xor _ _ dst | .nand _ _ dst | .nor _ _ dst
  | .xnor _ _ dst => some dst

/-- The meta opcodes (spec/49_meta.md). -/
def Instr.isMeta : Instr → Bool
  | .segment _ | .data _ => true
  | _ => false

/-- The stores (spec/41_load_store.md R146). -/
def Instr.isStore : Instr → Bool
  | .stb _ _ _ | .sth _ _ _ | .stw _ _ _ => true
  | _ => false

/-- The instructions that write the flags from their result (spec/10_state.md R46). -/
def Instr.writesResultFlags : Instr → Bool
  | .mov _ _ | .movs _ _ | .inc _ | .dec _ | .add _ _ _ | .sub _ _ _ | .iadd _ _ _ | .isub _ _ _ => true
  | .and _ _ _ | .or _ _ _ | .not _ _ | .xor _ _ _ | .nand _ _ _ | .nor _ _ _ | .xnor _ _ _ => true
  | .shlLit _ _ | .shlReg _ _ | .shrLit _ _ | .shrReg _ _ => true
  | _ => false

/-- CMP, the one instruction that writes the flags from a comparison (spec/10_state.md R46). -/
def Instr.isCompare : Instr → Bool
  | .cmp _ _ => true
  | _ => false

/-- The six conditional jumps (spec/10_state.md R47). -/
def Instr.isConditionalJump : Instr → Bool
  | .jeq _ _ | .jne _ _ | .jgt _ _ | .jge _ _ | .jlt _ _ | .jle _ _ => true
  | _ => false

/-- INT (spec/48_system.md R235). -/
def Instr.isInt : Instr → Bool
  | .int _ => true
  | _ => false

/-- The seven jumps (spec/43_jump_branch.md R170). -/
def Instr.isJump : Instr → Bool
  | .jmp _ _ | .jeq _ _ | .jne _ _ | .jgt _ _ | .jge _ _ | .jlt _ _ | .jle _ _ => true
  | _ => false

/-- A register field an instruction uses, read or written. -/
def Instr.Uses (i : Instr) (r : Reg) : Prop := r ∈ i.reads ∨ i.writes = some r

/-- The register indices that raise Illegal Instruction in a used field (spec/10_state.md R27 to R29). -/
def Reg.Illegal (r : Reg) : Prop := r = .noreg ∨ (∃ k, r = .internal k) ∨ ∃ k, r = .reserved k

/-- The opcodes of the R format (spec/30_encoding.md R95). -/
def rFormatOpcodes : List Nat :=
  [0x00, 0x01, 0x02, 0x14, 0x15, 0x16, 0x17, 0x18, 0x19, 0x1A, 0x1B, 0x1C, 0x1D, 0x1E, 0x1F, 0x20, 0x21, 0x23, 0x24]

/-- The opcodes whose bits 25-21 are marked "(N)" in spec/30_encoding.md R99: NOP, INT, IRT, HLT. -/
def noregFirstOpcodes : List Nat := [0x00, 0x22, 0x23, 0x24]

/-- The opcodes whose bits 20-16 are marked "(N)" in R99: NOP, MOV, MOVS, LLI, LUI, the jumps, INC, DEC, NOT, INT, IRT,
HLT. -/
def noregSecondOpcodes : List Nat :=
  [0x00, 0x01, 0x02, 0x0B, 0x0C, 0x0D, 0x0E, 0x0F, 0x10, 0x11, 0x12, 0x13, 0x15, 0x16, 0x1D, 0x22, 0x23, 0x24]

/-- The opcodes whose bits 15-11 are marked "(N)" in R99: NOP, CMP, INC, DEC, IRT, HLT. -/
def noregThirdOpcodes : List Nat := [0x00, 0x14, 0x15, 0x16, 0x23, 0x24]

/-- The opcodes of SHL and SHR. -/
def shiftOpcodes : List Nat := [0x17, 0x18]

/-- What the fixed field check of R100 asks of the word of an opcode, from the table of R99. -/
abbrev FixedFieldsOf (op : Nat) (w : Word) : Prop :=
  (op ∈ rFormatOpcodes → unField w = 0) ∧
  (op ∈ rFormatOpcodes → op ∉ shiftOpcodes → shField w = 0) ∧
  (op ∈ shiftOpcodes → s2Field w ≠ 0x17 → shField w = 0) ∧
  (op ∈ shiftOpcodes → dField w = s1Field w) ∧
  (op ∈ noregFirstOpcodes → s1Field w = 0x17) ∧
  (op ∈ noregSecondOpcodes → s2Field w = 0x17) ∧
  (op ∈ noregThirdOpcodes → dField w = 0x17)

/-- The fixed field check of R100. -/
abbrev FixedFieldCheck (w : Word) : Prop := FixedFieldsOf (opField w).toNat w

namespace Machine

/-- The address an exception records as that of its instruction (spec/60_exceptions.md R267). -/
def Fault.cur : Fault → Option Word
  | .illegalInstruction cur _ | .protectionFault cur _ | .alignmentFault cur _ | .memoryAccessViolation cur _ => some cur
  | .halted => none

/-- Every byte of memory reads as before. -/
def KeepsMemory (s t : State) : Prop := ∀ a : Nat, t.mem.get a = s.mem.get a

/-- Every byte of memory outside the `n` bytes from `addr` on reads as before. -/
def KeepsMemoryOutside (s t : State) (addr : Word) (n : Nat) : Prop :=
  ∀ a : Nat, (∀ k < n, a ≠ byteAddr addr k) → t.mem.get a = s.mem.get a

/-- Every stored register holds what it held. -/
def KeepsRegisters (s t : State) : Prop := ∀ i : Fin 22, t.getX i = s.getX i

/-- Every stored register holds what it held, but for the one `dst` names, if it names one: that one holds `v`. -/
def WritesRegister (s t : State) (dst : Reg) (v : Word) : Prop :=
  ∀ i : Fin 22, t.getX i = if dst = .stored i then v else s.getX i

/-- Mode, saved context, the halted flag and the mapped set are as before. -/
def KeepsSystem (s t : State) : Prop :=
  t.mode = s.mode ∧ t.ctx = s.ctx ∧ t.halted = s.halted ∧ t.mapped = s.mapped

/-- What an arithmetic, logical, shift or move instruction with result `v` leaves (spec/10_state.md R46): the destination,
`pc = cur + 4`, the Zero flag of the result, and nothing else but the five comparison flags, of which nothing is said. -/
def CompletesWithResult (s t : State) (dst : Reg) (v : Word) : Prop :=
  WritesRegister s t dst v ∧ t.pc = s.pc + 4 ∧ t.flags.z = (v == 0) ∧ KeepsMemory s t ∧ KeepsSystem s t

/-- What a load or an immediate load of `v` leaves: the destination, `pc = cur + 4`, and nothing else. -/
def CompletesWithLoad (s t : State) (dst : Reg) (v : Word) : Prop :=
  WritesRegister s t dst v ∧ t.pc = s.pc + 4 ∧ t.flags = s.flags ∧ KeepsMemory s t ∧ KeepsSystem s t

/-- What a store of the `n` low bytes of `v` at `addr` leaves (spec/41_load_store.md R146): those bytes, `pc = cur + 4`,
and nothing else. -/
def CompletesWithStore (s t : State) (addr v : Word) (n : Nat) : Prop :=
  (∀ k < n, t.mem.get (byteAddr addr k) = byteOf v k) ∧ KeepsMemoryOutside s t addr n ∧ KeepsRegisters s t ∧
    t.pc = s.pc + 4 ∧ t.flags = s.flags ∧ KeepsSystem s t

/-- What an instruction leaves that changes nothing but `pc`. -/
def CompletesAt (s t : State) (pc : Word) : Prop :=
  KeepsRegisters s t ∧ t.pc = pc ∧ t.flags = s.flags ∧ KeepsMemory s t ∧ KeepsSystem s t

/-- An access is aligned and every byte of it is mapped. -/
abbrev Accessible (s : State) (addr : Word) (sz : Size) : Prop :=
  aligned addr sz = true ∧ ∀ k < sz.bytes, ∃ r ∈ s.mapped, r.base ≤ byteAddr addr k ∧ byteAddr addr k < r.base + r.size

/-- The machine is in Kernel mode and a saved context, if there is one, is of Kernel mode (spec/60_exceptions.md R278). -/
def State.KernelOnly (s : State) : Prop := s.mode = .kernel ∧ (s.ctx.valid = true → s.ctx.mode = .kernel)

end Machine

end Sys2Proof
end

