-- ==== Sys2Proof/Certificates/Slice0/Obligations.lean ====
section
/-!
DEFINITION. The statements about the model, for the provers. Each docstring names the rules of spec/ its statement comes
from. A statement that rests on a decision of spec/92_eei_decisions.md (D<n>) or on an entry of the assumption log says so.
-/

open Sys2Proof Sys2Proof.Machine

/-! ## Encoding (spec/30_encoding.md) -/

/-- Decoding the word of a well-formed instruction gives it back, every operand at every value (R99). -/
def Obligations.DecodeOfEncode : Prop :=
  ∀ i : Instr, i.wf = true → decodeWord (encode i) = .ok i

/-- A word that decodes is the word of the instruction it decodes to, which is well-formed: no bit is dropped (R99). -/
def Obligations.EncodeOfDecode : Prop :=
  ∀ (w : Word) (i : Instr), decodeWord w = .ok i → i.wf = true ∧ encode i = w

/-- Fourteen words decode to the instructions they stand for. Each word is the example of its instruction's own rule (R130 to
R237, spec/40_data_movement.md to 48_system.md); its fields stand where R91, R93 and R99 put them (decisions D14, D15, D17). -/
def Obligations.DecodeSampleWords : Prop :=
  decodeWord 0x02F7B800 = .ok .nop ∧
  decodeWord 0x04371000 = .ok (.mov (.rg 1) (.rg 2)) ∧
  decodeWord 0x1E200008 = .ok (.ldw .spr (.rg 0) 8) ∧
  decodeWord 0x2811FFFC = .ok (.stw (.rg 0) .spr 0xFFFC) ∧
  decodeWord 0x2C171234 = .ok (.lli (.rg 0) 0x1234) ∧
  decodeWord 0x36770004 = .ok (.jmp .ret 4) ∧
  decodeWord 0x5022B800 = .ok (.cmp (.rg 1) (.rg 2)) ∧
  decodeWord 0x9422FFFF = .ok (.iadd (.rg 1) (.rg 2) 0xFFFF) ∧
  decodeWord 0x5C370900 = .ok (.shlLit (.rg 1) 4) ∧
  decodeWord 0x60220800 = .ok (.shrReg (.rg 1) (.rg 2)) ∧
  decodeWord 0x84221800 = .ok (.xnor (.rg 1) (.rg 2) (.rg 3)) ∧
  decodeWord 0x8AF70080 = .ok (.int 0x80) ∧
  decodeWord 0x8EF7B800 = .ok .irt ∧
  decodeWord 0x92F7B800 = .ok .hlt

/-- The 32 field values name the 32 register indices of spec/10_state.md R20. -/
def Obligations.RegisterIndexMap : Prop :=
  (∀ n : Fin 22, Reg.ofBits (BitVec.ofNat 5 n.val) = .stored n) ∧
  Reg.ofBits 0x16 = .zero ∧ Reg.ofBits 0x17 = .noreg ∧
  (∀ n : Fin 4, Reg.ofBits (BitVec.ofNat 5 (0x18 + n.val)) = .internal n) ∧
  Reg.ofBits 0x1C = .pcx ∧
  (∀ n : Fin 3, Reg.ofBits (BitVec.ofNat 5 (0x1D + n.val)) = .reserved n)

/-- A word decodes to a hardware instruction exactly when its opcode is below 0x27 and its fixed fields hold what R99
gives them (R96, R100; the fixed field check is decisions D3, D14 to D17). -/
def Obligations.DecoderSelectsExactly : Prop :=
  ∀ w : Word, (∃ i, decodeWord w = .ok i ∧ i.isMeta = false) ↔ (opField w).toNat < 0x27 ∧ FixedFieldCheck w

/-- A fetched word with an opcode from 0x27 on, or with a wrong fixed field, raises Illegal Instruction with the address
and the word (R100, R104, spec/60_exceptions.md R263; decisions D3, D32). -/
def Obligations.IllegalWordFaults : Prop :=
  ∀ (s : State) (w : Word), s.halted = false → fetch s = .ok w →
    0x27 ≤ (opField w).toNat ∨ ¬ FixedFieldCheck w → step s = .fault (.illegalInstruction s.pc w)

/-! ## The step (spec/10_state.md R40 to R43, R52) -/

/-- When the machine runs and the bytes at `pc`, aligned and mapped, are those of a word that decodes to `i`, the step is
`exec i` (R41). That a mapped address may be fetched from is the default `MemPermit` (decision D26,
notes/assumptions/5.md). -/
def Obligations.StepRunsDecodedInstruction : Prop :=
  ∀ (s : State) (w : Word) (i : Instr), s.halted = false → Accessible s s.pc .word →
    (∀ k < 4, s.mem.get (byteAddr s.pc k) = byteOf w k) → decodeWord w = .ok i → step s = exec i s

/-- R52: `halted` is false when execution starts, is set by HLT and by nothing else, is cleared by nothing, and no step
exists when it is true. -/
def Obligations.HaltedIsTerminal : Prop :=
  (∀ l : Launch, (State.launch l).halted = false) ∧
  (∀ s : State, ∃ t, exec .hlt s = .next t ∧ t.halted = true) ∧
  (∀ (i : Instr) (s t : State), exec i s = .next t → s.halted = false → t.halted = true → i = .hlt) ∧
  (∀ (i : Instr) (s t : State), exec i s = .next t → s.halted = true → t.halted = true) ∧
  (∀ s t : State, s.halted = true → step s ≠ .next t)

/-- A fetch from an address that is no multiple of 4 raises Alignment Fault; from an aligned address where `MemPermit`
rejects the fetch, Memory Access Violation (spec/20_memory.md R68, R70, D2; spec/60_exceptions.md R265, R266). -/
def Obligations.FetchFaults : Prop :=
  ∀ s : State, s.halted = false →
    (s.pc.extractLsb' 0 2 ≠ 0 → step s = .fault (.alignmentFault s.pc s.pc)) ∧
    (s.pc.extractLsb' 0 2 = 0 → memPermit s .fetch s.pc .word = false →
      step s = .fault (.memoryAccessViolation s.pc s.pc))

/-- The `pc` each instruction that completes leaves, and the `cur` each exception records (R42; spec/60_exceptions.md R262;
the conditions of JGE and JLE are decision D12). -/
def Obligations.NextPcRule : Prop :=
  ∀ s t : State,
    (∀ i : Instr, i.isJump = false → i.isInt = false → i ≠ .irt → exec i s = .next t → t.pc = s.pc + 4) ∧
    (∀ (base : Reg) (off : BitVec 16),
      let target := regRead s base + sext16 off
      (exec (.jmp base off) s = .next t → t.pc = target) ∧
      (exec (.jeq base off) s = .next t → t.pc = if s.flags.eq = true then target else s.pc + 4) ∧
      (exec (.jne base off) s = .next t → t.pc = if s.flags.eq = false then target else s.pc + 4) ∧
      (exec (.jgt base off) s = .next t → t.pc = if s.flags.gt = true then target else s.pc + 4) ∧
      (exec (.jge base off) s = .next t → t.pc = if s.flags.gt = true ∨ s.flags.eq = true then target else s.pc + 4) ∧
      (exec (.jlt base off) s = .next t → t.pc = if s.flags.lt = true then target else s.pc + 4) ∧
      (exec (.jle base off) s = .next t → t.pc = if s.flags.lt = true ∨ s.flags.eq = true then target else s.pc + 4)) ∧
    (∀ imm : BitVec 16, exec (.int imm) s = .next t → readHandler s (intCode imm) = .ok t.pc) ∧
    (exec .irt s = .next t → t.pc = s.getX 0x13) ∧
    (exec .hlt s = .next t → t.pc = s.pc + 4 ∧ t.halted = true) ∧
    (∀ (i : Instr) (f : Fault), exec i s = .fault f → f.cur = some s.pc)

/-! ## Values and memory (spec/00_scope.md R7, spec/20_memory.md) -/

/-- R7: the low bits of an extension are the value's; the others all equal its sign bit, or are 0; "SignExtend(Offset)" is
the extension of the 16-bit immediate. -/
def Obligations.ExtensionRule : Prop :=
  (∀ (v : Byte) (k : Nat), k < 32 → (sext8 v).getLsbD k = if k < 8 then v.getLsbD k else v.getLsbD 7) ∧
  (∀ (v : BitVec 16) (k : Nat), k < 32 → (sext16 v).getLsbD k = if k < 16 then v.getLsbD k else v.getLsbD 15) ∧
  (∀ (v : Byte) (k : Nat), k < 32 → (zext8 v).getLsbD k = if k < 8 then v.getLsbD k else false) ∧
  (∀ (v : BitVec 16) (k : Nat), k < 32 → (zext16 v).getLsbD k = if k < 16 then v.getLsbD k else false) ∧
  (∀ (s : State) (base : Reg) (off : BitVec 16), effAddr s base off = regRead s base + sext16 off)

/-- R62: the bytes of a halfword and of a word in memory, and of a fetched instruction, lowest address first. -/
def Obligations.LittleEndianAccess : Prop :=
  (∀ (m : Memory) (a : Word), a.getLsbD 0 = false →
    byteOf (m.load a .half) 0 = m.get a.toNat ∧ byteOf (m.load a .half) 1 = m.get (a.toNat + 1)) ∧
  (∀ (m : Memory) (a : Word), a.extractLsb' 0 2 = 0 → ∀ k < 4, byteOf (m.load a .word) k = m.get (a.toNat + k)) ∧
  (∀ (m : Memory) (a v : Word), a.getLsbD 0 = false → ∀ k < 2, (m.store a v 2).get (a.toNat + k) = byteOf v k) ∧
  (∀ (m : Memory) (a v : Word), a.extractLsb' 0 2 = 0 → ∀ k < 4, (m.store a v 4).get (a.toNat + k) = byteOf v k) ∧
  (∀ (s : State) (w : Word), fetch s = .ok w →
    (∀ k < 4, byteOf w k = s.mem.get (s.pc.toNat + k)) ∧
    opField w = (s.mem.get (s.pc.toNat + 3)).extractLsb' 2 6 ∧
    (s1Field w).extractLsb' 3 2 = (s.mem.get (s.pc.toNat + 3)).extractLsb' 0 2)

/-- `MemRead` (R66): the alignment test, then `MemPermit`, then the little-endian value, whose addresses do not wrap. The
order of the two tests is decision D7. -/
def Obligations.MemReadRule : Prop :=
  ∀ (s : State) (a : Word),
    memRead s a .byte =
      (if memPermit s .read a .byte then .ok (zext8 (s.mem.get a.toNat)) else .error (.memoryAccessViolation s.pc a)) ∧
    memRead s a .half =
      (if a.getLsbD 0 then .error (.alignmentFault s.pc a)
       else if memPermit s .read a .half then .ok (zext16 (s.mem.get (a.toNat + 1) ++ s.mem.get a.toNat))
       else .error (.memoryAccessViolation s.pc a)) ∧
    memRead s a .word =
      (if a.extractLsb' 0 2 ≠ 0 then .error (.alignmentFault s.pc a)
       else if memPermit s .read a .word then
        .ok (s.mem.get (a.toNat + 3) ++ s.mem.get (a.toNat + 2) ++ s.mem.get (a.toNat + 1) ++ s.mem.get a.toNat)
       else .error (.memoryAccessViolation s.pc a))

/-- `MemWrite` (R67) tests alignment, then `MemPermit` (their order is decision D7), then stores the low bytes of `v` and
changes no other byte and nothing else. -/
def Obligations.MemWriteRule : Prop :=
  ∀ (s : State) (a v : Word),
    (a.getLsbD 0 = true → memWrite s a .half v = .error (.alignmentFault s.pc a)) ∧
    (a.extractLsb' 0 2 ≠ 0 → memWrite s a .word v = .error (.alignmentFault s.pc a)) ∧
    (∀ sz : Size, (sz = .half → a.getLsbD 0 = false) → (sz = .word → a.extractLsb' 0 2 = 0) →
      (memPermit s .write a sz = false → memWrite s a sz v = .error (.memoryAccessViolation s.pc a)) ∧
      (memPermit s .write a sz = true → ∃ t, memWrite s a sz v = .ok t ∧
        (∀ k < sz.bytes, t.mem.get (a.toNat + k) = byteOf v k) ∧
        (∀ b : Nat, (∀ k < sz.bytes, b ≠ a.toNat + k) → t.mem.get b = s.mem.get b) ∧
        t = { s with mem := t.mem }))

/-- The default `MemPermit` (R70, decision D26): all bytes of the access are in the launch-fixed set, whatever the mode,
the kind of access and `mmr`. That the set stands in the state is the model's choice, notes/assumptions/5.md. -/
def Obligations.PermitRule : Prop :=
  ∀ (s : State) (kind : AccessKind) (a : Word) (sz : Size),
    memPermit s kind a sz = true ↔
      ∀ k < sz.bytes, ∃ r ∈ s.mapped, r.base ≤ byteAddr a k ∧ byteAddr a k < r.base + r.size

/-- After a word is written, the bytes and halfwords inside it read as R64 says. That what may be written may be read is the
default `MemPermit` (R70, decision D26, notes/assumptions/5.md). -/
def Obligations.MixedWidthReads : Prop :=
  ∀ (s t : State) (a v : Word), memWrite s a .word v = .ok t →
    memRead t a .word = .ok v ∧
    memRead t a .byte = .ok (zext8 (byteOf v 0)) ∧ memRead t (a + 1) .byte = .ok (zext8 (byteOf v 1)) ∧
    memRead t (a + 2) .byte = .ok (zext8 (byteOf v 2)) ∧ memRead t (a + 3) .byte = .ok (zext8 (byteOf v 3)) ∧
    memRead t a .half = .ok (zext16 (v.extractLsb' 0 16)) ∧ memRead t (a + 2) .half = .ok (zext16 (v.extractLsb' 16 16))

/-- A word that STW stores is the word a fetch at that address reads next (R78, decision D28). That what may be written may
be fetched is the default `MemPermit` (R70, decision D26, notes/assumptions/5.md). -/
def Obligations.StoreSeenByFetch : Prop :=
  ∀ (s t : State) (src base : Reg) (off : BitVec 16), exec (.stw src base off) s = .next t →
    fetch { t with pc := effAddr s base off } = .ok (regRead s src)

/-- Every step keeps memory in its canonical form, the model's own (notes/assumptions/4.md): addresses of the 2^32-byte
space (R60) strictly rising, no entry that says what an unlisted address says anyway. -/
def Obligations.StepKeepsMemoryCanonical : Prop :=
  ∀ s t : State, s.mem.wf → step s = .next t → t.mem.wf

/-- No step changes which addresses are mapped: `MAPPED` is fixed at launch (R70, decision D26). That it stands in the state is
the model's choice, notes/assumptions/5.md. -/
def Obligations.MappedIsFixed : Prop :=
  ∀ s t : State, step s = .next t → t.mapped = s.mapped

/-! ## Register operands (spec/10_state.md R20 to R35) -/

/-- What each index reads as and which reads fault (R33; `pcx` as `cur + 4` is decision D1, the internal and reserved
indices decision D4). -/
def Obligations.OperandReadRule : Prop :=
  ∀ s : State,
    (∀ i, regRead s (.stored i) = s.getX i) ∧ regRead s .zero = 0 ∧ regRead s .pcx = s.pc + 4 ∧
    ∀ r : Reg, readable s r = false ↔ r.Illegal ∨ s.mode = .user ∧ (r = .idr ∨ r = .mmr)

/-- What a write to each index does and which writes fault (R34; the internal and reserved indices are decision D4). -/
def Obligations.OperandWriteRule : Prop :=
  ∀ s : State,
    (∀ (i : Fin 22) (v : Word), (regWrite s (.stored i) v).getX i = v ∧
      (∀ j, j ≠ i → (regWrite s (.stored i) v).getX j = s.getX j) ∧
      regWrite s (.stored i) v = { s with x := (regWrite s (.stored i) v).x }) ∧
    (∀ v : Word, regWrite s .zero v = s) ∧
    ∀ r : Reg, writable s r = false ↔ r.Illegal ∨ r = .pcx ∨ s.mode = .user ∧ (r = .idr ∨ r = .mmr)

/-- `zero` reads as 0 and accepts every write, which is discarded, while the rest of the instruction happens: ADD still
writes its flags, and a load still makes its access, with its faults (R26, decision D35). -/
def Obligations.ZeroRegister : Prop :=
  (∀ s : State, readable s .zero = true ∧ writable s .zero = true ∧ regRead s .zero = 0) ∧
  (∀ (i : Instr) (s t : State), i.writes = some .zero → exec i s = .next t → KeepsRegisters s t) ∧
  (∀ (s : State) (a b : Reg), readable s a = true → readable s b = true →
    ∃ t, exec (.add a b .zero) s = .next t ∧ t.flags.z = (regRead s a + regRead s b == 0)) ∧
  (∀ (s : State) (base : Reg) (off : BitVec 16) (f : Fault), readable s base = true →
    (memRead s (effAddr s base off) .byte = .error f →
      exec (.ldb base .zero off) s = .fault f ∧ exec (.ldbs base .zero off) s = .fault f) ∧
    (memRead s (effAddr s base off) .half = .error f →
      exec (.ldh base .zero off) s = .fault f ∧ exec (.ldhs base .zero off) s = .fault f) ∧
    (memRead s (effAddr s base off) .word = .error f → exec (.ldw base .zero off) s = .fault f))

/-- Protection Fault (spec/60_exceptions.md R264) is raised exactly when no used field is an Illegal Instruction case
(decision D4) and the instruction writes `pcx`, or uses `idr` or `mmr` in User mode; it records the instruction and such
an index. `noreg` raises Illegal Instruction instead, and a write to `zero` no fault. The order is decision D7. -/
def Obligations.ProtectionFaultRule : Prop :=
  ∀ (i : Instr) (s : State),
    ((∃ c x, exec i s = .fault (.protectionFault c x)) ↔
      (∀ r, i.Uses r → ¬ r.Illegal) ∧
      (i.writes = some .pcx ∨ s.mode = .user ∧ (i.Uses .idr ∨ i.Uses .mmr))) ∧
    (∀ c x, exec i s = .fault (.protectionFault c x) → c = s.pc ∧
      (x = 0x1C ∧ i.writes = some .pcx ∨ x = 0x14 ∧ s.mode = .user ∧ i.Uses .idr ∨
        x = 0x15 ∧ s.mode = .user ∧ i.Uses .mmr)) ∧
    (i.Uses .noreg → exec i s = .fault (.illegalInstruction s.pc (encode i))) ∧
    writable s .zero = true

/-- An instruction with `noreg`, an internal or a reserved index in a used field raises Illegal Instruction with its
address and word, in either mode and before every other check; an untaken jump too (R27 to R29, R35; decisions D4,
D7). -/
def Obligations.IllegalOperandFaults : Prop :=
  ∀ (i : Instr) (s : State) (r : Reg), i.Uses r → r.Illegal →
    exec i s = .fault (.illegalInstruction s.pc (encode i))

/-! ## Data movement (spec/40_data_movement.md) -/

/-- NOP moves on and changes nothing else (R130). -/
def Obligations.NopAdvances : Prop :=
  ∀ s : State, ∃ t, exec .nop s = .next t ∧ CompletesAt s t (s.pc + 4)

/-- MOV copies its source; MOVS writes the open function of its source; both write Zero from the value written and change
nothing else but the comparison flags (R131, R132; decisions D8, D13; notes/assumptions/7.md). -/
def Obligations.MoveResults : Prop :=
  ∀ (s : State) (src dst : Reg), readable s src = true → writable s dst = true →
    (∃ t, exec (.mov src dst) s = .next t ∧ CompletesWithResult s t dst (regRead s src)) ∧
    (∃ t, exec (.movs src dst) s = .next t ∧ CompletesWithResult s t dst (Config.movsFn (regRead s src)))

/-! ## Arithmetic (spec/45_arithmetic.md) -/

/-- ADD and SUB (R198, R199): the sum and the difference modulo 2^32. -/
def Obligations.AddSubResults : Prop :=
  ∀ (s : State) (a b dst : Reg), readable s a = true → readable s b = true → writable s dst = true →
    (∃ t, exec (.add a b dst) s = .next t ∧ CompletesWithResult s t dst (regRead s a + regRead s b)) ∧
    (∃ t, exec (.sub a b dst) s = .next t ∧ CompletesWithResult s t dst (regRead s a - regRead s b))

/-- INC and DEC (R196, R197), in place. -/
def Obligations.IncDecResults : Prop :=
  ∀ (s : State) (reg : Reg), writable s reg = true →
    (∃ t, exec (.inc reg) s = .next t ∧ CompletesWithResult s t reg (regRead s reg + 1)) ∧
    (∃ t, exec (.dec reg) s = .next t ∧ CompletesWithResult s t reg (regRead s reg - 1))

/-- IADD and ISUB (R200, R201): the literal sign-extended. -/
def Obligations.ImmediateArithmeticResults : Prop :=
  ∀ (s : State) (src dst : Reg) (lit : BitVec 16), readable s src = true → writable s dst = true →
    (∃ t, exec (.iadd src dst lit) s = .next t ∧ CompletesWithResult s t dst (regRead s src + sext16 lit)) ∧
    (∃ t, exec (.isub src dst lit) s = .next t ∧ CompletesWithResult s t dst (regRead s src - sext16 lit))

/-! ## Logic and shifts (spec/46_logical.md, spec/47_shift.md) -/

/-- The seven logical instructions (R210 to R217). -/
def Obligations.LogicalResults : Prop :=
  ∀ (s : State) (a b dst : Reg), readable s a = true → writable s dst = true →
    (∃ t, exec (.not a dst) s = .next t ∧ CompletesWithResult s t dst (~~~ regRead s a)) ∧
    (readable s b = true →
      (∃ t, exec (.and a b dst) s = .next t ∧ CompletesWithResult s t dst (regRead s a &&& regRead s b)) ∧
      (∃ t, exec (.or a b dst) s = .next t ∧ CompletesWithResult s t dst (regRead s a ||| regRead s b)) ∧
      (∃ t, exec (.xor a b dst) s = .next t ∧ CompletesWithResult s t dst (regRead s a ^^^ regRead s b)) ∧
      (∃ t, exec (.nand a b dst) s = .next t ∧ CompletesWithResult s t dst (~~~(regRead s a &&& regRead s b))) ∧
      (∃ t, exec (.nor a b dst) s = .next t ∧ CompletesWithResult s t dst (~~~(regRead s a ||| regRead s b))) ∧
      (∃ t, exec (.xnor a b dst) s = .next t ∧ CompletesWithResult s t dst (~~~(regRead s a ^^^ regRead s b))))

/-- SHL and SHR by a literal count (R226, R227): times 2^count modulo 2^32, and the quotient by 2^count, in place. -/
def Obligations.LiteralShiftResults : Prop :=
  ∀ (s : State) (reg : Reg) (count : BitVec 5), writable s reg = true →
    (∃ t, exec (.shlLit reg count) s = .next t ∧
      CompletesWithResult s t reg (BitVec.ofNat 32 ((regRead s reg).toNat * 2 ^ count.toNat))) ∧
    (∃ t, exec (.shrLit reg count) s = .next t ∧
      CompletesWithResult s t reg (BitVec.ofNat 32 ((regRead s reg).toNat / 2 ^ count.toNat)))

/-- SHL and SHR by a register: the count is the low 5 bits of the count register, so its value modulo 32 (R225). -/
def Obligations.RegisterShiftResults : Prop :=
  ∀ (s : State) (reg count : Reg), writable s reg = true → readable s count = true →
    (∃ t, exec (.shlReg reg count) s = .next t ∧ CompletesWithResult s t reg
      (BitVec.ofNat 32 ((regRead s reg).toNat * 2 ^ ((regRead s count).toNat % 32)))) ∧
    (∃ t, exec (.shrReg reg count) s = .next t ∧ CompletesWithResult s t reg
      (BitVec.ofNat 32 ((regRead s reg).toNat / 2 ^ ((regRead s count).toNat % 32))))

/-- The comparison flags an instruction leaves undefined are fresh draws, one for each flag, counted so that none is used
twice; every other instruction draws none (spec/10_state.md R48, decision D9; the model's form, notes/assumptions/6.md). -/
def Obligations.UndefinedFlagsAreFreshDraws : Prop :=
  ∀ (i : Instr) (s t : State), exec i s = .next t →
    (i.writesResultFlags = true →
      t.flags.eq = Config.undefFlag s.undefDraws ∧ t.flags.gt = Config.undefFlag (s.undefDraws + 1) ∧
      t.flags.ge = Config.undefFlag (s.undefDraws + 2) ∧ t.flags.lt = Config.undefFlag (s.undefDraws + 3) ∧
      t.flags.le = Config.undefFlag (s.undefDraws + 4) ∧ t.undefDraws = s.undefDraws + 5) ∧
    (i.writesResultFlags = false → t.undefDraws = s.undefDraws)

/-- Where each flag stands in `STS`, whose bits 31 to 6 read as 0 (spec/10_state.md R45). The state holds the six flags
only, notes/assumptions/13.md. -/
def Obligations.StatusRegisterLayout : Prop :=
  ∀ s : State,
    s.sts.getLsbD 0 = s.flags.eq ∧ s.sts.getLsbD 1 = s.flags.gt ∧ s.sts.getLsbD 2 = s.flags.ge ∧
      s.sts.getLsbD 3 = s.flags.lt ∧ s.sts.getLsbD 4 = s.flags.le ∧ s.sts.getLsbD 5 = s.flags.z ∧
      s.sts.extractLsb' 6 26 = 0

/-! ## Comparison (spec/44_compare.md) -/

/-- CMP writes the six flags from the signed comparison and changes nothing else but `pc` (R190, decision D11). -/
def Obligations.CompareResult : Prop :=
  ∀ (s : State) (a b : Reg), readable s a = true → readable s b = true →
    ∃ t, exec (.cmp a b) s = .next t ∧
      t.flags.eq = decide (regRead s a = regRead s b) ∧
      t.flags.gt = decide ((regRead s b).toInt < (regRead s a).toInt) ∧
      t.flags.ge = decide ((regRead s b).toInt ≤ (regRead s a).toInt) ∧
      t.flags.lt = decide ((regRead s a).toInt < (regRead s b).toInt) ∧
      t.flags.le = decide ((regRead s a).toInt ≤ (regRead s b).toInt) ∧
      t.flags.z = decide (regRead s a = regRead s b) ∧
      KeepsRegisters s t ∧ t.pc = s.pc + 4 ∧ KeepsMemory s t ∧ KeepsSystem s t

/-- The three words CMP can leave in `STS`, and when: the table after R190. -/
def Obligations.CompareStatusWord : Prop :=
  ∀ (s t : State) (a b : Reg), exec (.cmp a b) s = .next t →
    (regRead s a = regRead s b ∧ t.sts = 0x35) ∨
    ((regRead s b).toInt < (regRead s a).toInt ∧ t.sts = 0x06) ∨
    ((regRead s a).toInt < (regRead s b).toInt ∧ t.sts = 0x18)

/-! ## Loads and stores (spec/41_load_store.md, spec/42_immediate_load.md) -/

/-- The five loads (R140 to R145): the bytes at base plus offset, extended, in the destination; no flag. That a mapped
address may be read is the default `MemPermit` (R70, decision D26, notes/assumptions/5.md). -/
def Obligations.LoadResults : Prop :=
  ∀ (s : State) (base dst : Reg) (off : BitVec 16), readable s base = true → writable s dst = true →
    let a := regRead s base + sext16 off
    (Accessible s a .byte →
      (∃ t, exec (.ldb base dst off) s = .next t ∧ CompletesWithLoad s t dst (zext8 (s.mem.get (byteAddr a 0)))) ∧
      (∃ t, exec (.ldbs base dst off) s = .next t ∧ CompletesWithLoad s t dst (sext8 (s.mem.get (byteAddr a 0))))) ∧
    (Accessible s a .half →
      (∃ t, exec (.ldh base dst off) s = .next t ∧
        CompletesWithLoad s t dst (zext16 (s.mem.get (byteAddr a 1) ++ s.mem.get (byteAddr a 0)))) ∧
      (∃ t, exec (.ldhs base dst off) s = .next t ∧
        CompletesWithLoad s t dst (sext16 (s.mem.get (byteAddr a 1) ++ s.mem.get (byteAddr a 0))))) ∧
    (Accessible s a .word →
      (∃ t, exec (.ldw base dst off) s = .next t ∧ CompletesWithLoad s t dst
        (s.mem.get (byteAddr a 3) ++ s.mem.get (byteAddr a 2) ++ s.mem.get (byteAddr a 1) ++ s.mem.get (byteAddr a 0))))

/-- The three stores (R146 to R149): the low bytes of the source at base plus offset, and nothing else. That a mapped address
may be written is the default `MemPermit` (R70, decision D26, notes/assumptions/5.md). -/
def Obligations.StoreResults : Prop :=
  ∀ (s : State) (src base : Reg) (off : BitVec 16), readable s src = true → readable s base = true →
    let a := regRead s base + sext16 off
    (Accessible s a .byte → ∃ t, exec (.stb src base off) s = .next t ∧ CompletesWithStore s t a (regRead s src) 1) ∧
    (Accessible s a .half → ∃ t, exec (.sth src base off) s = .next t ∧ CompletesWithStore s t a (regRead s src) 2) ∧
    (Accessible s a .word → ∃ t, exec (.stw src base off) s = .next t ∧ CompletesWithStore s t a (regRead s src) 4)

/-- A load or a store whose register checks pass raises Alignment Fault for a misaligned address, and Memory Access
Violation for an aligned one that is not permitted; byte accesses have no alignment (R140, R146, spec/60_exceptions.md
R265, R266; their order is decision D7). -/
def Obligations.LoadStoreFaults : Prop :=
  ∀ (s : State) (base r : Reg) (off : BitVec 16), readable s base = true →
    let a := regRead s base + sext16 off
    (writable s r = true →
      (memPermit s .read a .byte = false →
        exec (.ldb base r off) s = .fault (.memoryAccessViolation s.pc a) ∧
        exec (.ldbs base r off) s = .fault (.memoryAccessViolation s.pc a)) ∧
      (a.getLsbD 0 = true →
        exec (.ldh base r off) s = .fault (.alignmentFault s.pc a) ∧
        exec (.ldhs base r off) s = .fault (.alignmentFault s.pc a)) ∧
      (a.getLsbD 0 = false → memPermit s .read a .half = false →
        exec (.ldh base r off) s = .fault (.memoryAccessViolation s.pc a) ∧
        exec (.ldhs base r off) s = .fault (.memoryAccessViolation s.pc a)) ∧
      (a.extractLsb' 0 2 ≠ 0 → exec (.ldw base r off) s = .fault (.alignmentFault s.pc a)) ∧
      (a.extractLsb' 0 2 = 0 → memPermit s .read a .word = false →
        exec (.ldw base r off) s = .fault (.memoryAccessViolation s.pc a))) ∧
    (readable s r = true →
      (memPermit s .write a .byte = false → exec (.stb r base off) s = .fault (.memoryAccessViolation s.pc a)) ∧
      (a.getLsbD 0 = true → exec (.sth r base off) s = .fault (.alignmentFault s.pc a)) ∧
      (a.getLsbD 0 = false → memPermit s .write a .half = false →
        exec (.sth r base off) s = .fault (.memoryAccessViolation s.pc a)) ∧
      (a.extractLsb' 0 2 ≠ 0 → exec (.stw r base off) s = .fault (.alignmentFault s.pc a)) ∧
      (a.extractLsb' 0 2 = 0 → memPermit s .write a .word = false →
        exec (.stw r base off) s = .fault (.memoryAccessViolation s.pc a)))

/-- No instruction but a store changes a byte of memory: R60 (spec/20_memory.md, decision D25) lists the instructions that
reach memory, and of these only the three stores (R146) write; a load and a fetch read (R68, R72), INT reads one word
(R235) and pushes nothing (spec/60_exceptions.md R271). -/
def Obligations.OnlyStoresChangeMemory : Prop :=
  ∀ (i : Instr) (s t : State), i.isStore = false → exec i s = .next t → KeepsMemory s t

/-- LLI and LUI (R160, R161): the value zero-extended; the value above the old low half; no flag (decision D10). -/
def Obligations.ImmediateLoadResults : Prop :=
  ∀ (s : State) (dst : Reg) (value : BitVec 16), writable s dst = true →
    (∃ t, exec (.lli dst value) s = .next t ∧ CompletesWithLoad s t dst (zext16 value)) ∧
    (∃ t, exec (.lui dst value) s = .next t ∧
      CompletesWithLoad s t dst (value ++ (regRead s dst).extractLsb' 0 16))

/-- LLI and then LUI build a 32-bit constant in a stored register (spec/70_reset_and_hazards.md R307). -/
def Obligations.BuildWordWithLliLui : Prop :=
  ∀ (s : State) (i : Fin 22) (lo hi : BitVec 16), writable s (.stored i) = true →
    ∃ t u, exec (.lli (.stored i) lo) s = .next t ∧ exec (.lui (.stored i) hi) t = .next u ∧
      u.getX i = hi ++ lo ∧ (∀ j, j ≠ i → u.getX j = s.getX j) ∧ u.flags = s.flags

/-! ## Jumps (spec/43_jump_branch.md) -/

/-- The seven jumps (R170 to R177): to base plus offset when the condition holds, else to `cur + 4`; nothing else changes,
and the target is not checked (decisions D2, D12). -/
def Obligations.JumpResults : Prop :=
  ∀ (s : State) (base : Reg) (off : BitVec 16), readable s base = true →
    let target := regRead s base + sext16 off
    (∃ t, exec (.jmp base off) s = .next t ∧ CompletesAt s t target) ∧
    (∃ t, exec (.jeq base off) s = .next t ∧ CompletesAt s t (if s.flags.eq = true then target else s.pc + 4)) ∧
    (∃ t, exec (.jne base off) s = .next t ∧ CompletesAt s t (if s.flags.eq = false then target else s.pc + 4)) ∧
    (∃ t, exec (.jgt base off) s = .next t ∧ CompletesAt s t (if s.flags.gt = true then target else s.pc + 4)) ∧
    (∃ t, exec (.jge base off) s = .next t ∧
      CompletesAt s t (if s.flags.gt = true ∨ s.flags.eq = true then target else s.pc + 4)) ∧
    (∃ t, exec (.jlt base off) s = .next t ∧ CompletesAt s t (if s.flags.lt = true then target else s.pc + 4)) ∧
    (∃ t, exec (.jle base off) s = .next t ∧
      CompletesAt s t (if s.flags.lt = true ∨ s.flags.eq = true then target else s.pc + 4))

/-- No instruction but the six conditional jumps reads a flag, and these read only Equal, GreaterThan and LessThan: with
other flags, of which a conditional jump may not read the ones that differ, the outcome is the same but for the flags
(spec/10_state.md R47, under decision D12). That whether an access is permitted depends on no flag is the default
`MemPermit` (spec/20_memory.md R70, decision D26, notes/assumptions/5.md). -/
def Obligations.FlagsReadOnlyByConditionalJumps : Prop :=
  ∀ (i : Instr) (s : State) (f : Flags),
    (i.isConditionalJump = true → f.eq = s.flags.eq ∧ f.gt = s.flags.gt ∧ f.lt = s.flags.lt) →
    match exec i s with
    | .next t => ∃ t', exec i { s with flags := f } = .next t' ∧ { t' with flags := t.flags } = t
    | .fault e => exec i { s with flags := f } = .fault e
    | .refused r => exec i { s with flags := f } = .refused r

/-! ## System (spec/48_system.md, spec/60_exceptions.md) -/

/-- INT takes the trap (R235, R271; decisions D1, D18 to D23; the kernel stack address is notes/assumptions/8.md). That a
mapped table entry may be read is the default `MemPermit` (spec/20_memory.md R70, decision D26, notes/assumptions/5.md). -/
def Obligations.IntEntersTrap : Prop :=
  ∀ (s : State) (imm : BitVec 16), s.ctx.valid = false →
    let entry := s.getX 0x14 + 4 * (imm.extractLsb' 0 8).setWidth 32
    Accessible s entry .word →
    ∃ t, exec (.int imm) s = .next t ∧
      t.getX 0x13 = s.pc + 4 ∧ t.getX 0x12 = Config.kernelStackAddr ∧
      (∀ i, i ≠ 0x13 → i ≠ 0x12 → t.getX i = s.getX i) ∧
      t.mode = .kernel ∧ t.ctx = { valid := true, bpr := s.getX 0x12, mode := s.mode } ∧
      t.pc = s.mem.get (byteAddr entry 3) ++ s.mem.get (byteAddr entry 2) ++ s.mem.get (byteAddr entry 1) ++
        s.mem.get (byteAddr entry 0) ∧
      t.flags = s.flags ∧ t.halted = s.halted ∧ t.mapped = s.mapped ∧ KeepsMemory s t

/-- An INT whose table entry cannot be read raises the exception of the read: Alignment Fault when `idr` is no multiple of
4, else Memory Access Violation when `MemPermit` rejects the read made with Kernel rights, whatever the current mode
(R235, R272; decision D19). It rests on no property of the default `MemPermit`. -/
def Obligations.IntTableFaults : Prop :=
  ∀ (s : State) (imm : BitVec 16), s.ctx.valid = false →
    let entry := s.getX 0x14 + 4 * (imm.extractLsb' 0 8).setWidth 32
    ((s.getX 0x14).extractLsb' 0 2 ≠ 0 → exec (.int imm) s = .fault (.alignmentFault s.pc entry)) ∧
    ((s.getX 0x14).extractLsb' 0 2 = 0 → memPermit { s with mode := .kernel } .read entry .word = false →
      exec (.int imm) s = .fault (.memoryAccessViolation s.pc entry))

/-- IRT returns from the trap (R236, R273; decision D22). -/
def Obligations.IrtReturns : Prop :=
  ∀ s : State, s.ctx.valid = true →
    ∃ t, exec .irt s = .next t ∧
      t.getX 0x12 = s.ctx.bpr ∧ (∀ i, i ≠ 0x12 → t.getX i = s.getX i) ∧
      t.mode = s.ctx.mode ∧ t.ctx.valid = false ∧ t.pc = s.getX 0x13 ∧
      t.flags = s.flags ∧ t.halted = s.halted ∧ t.mapped = s.mapped ∧ KeepsMemory s t

/-- A handler that leaves `ret` alone returns to the instruction after the INT, with the `bpr` and the mode of the
interrupted program, whatever else it did (R235, R236; decisions D1, D22). -/
def Obligations.IntThenIrtRestores : Prop :=
  ∀ (s t u : State) (imm : BitVec 16), exec (.int imm) s = .next t → u.ctx = t.ctx → u.getX 0x13 = t.getX 0x13 →
    ∃ v, exec .irt u = .next v ∧ v.pc = s.pc + 4 ∧ v.getX 0x12 = s.getX 0x12 ∧ v.mode = s.mode ∧
      v.ctx.valid = false ∧ (∀ i, i ≠ 0x12 → v.getX i = u.getX i) ∧ v.flags = u.flags ∧ KeepsMemory u v

/-- The two refusals and their only causes: INT while a context is saved, IRT while none is (spec/60_exceptions.md R261,
R273, R274; decision D22). -/
def Obligations.RefusalsOnlyForContext : Prop :=
  (∀ (s : State) (imm : BitVec 16), s.ctx.valid = true → exec (.int imm) s = .refused .intWhileContextSaved) ∧
  (∀ s : State, s.ctx.valid = false → exec .irt s = .refused .irtWithoutContext) ∧
  (∀ (s : State) (r : Refusal), step s = .refused r →
    r = .intWhileContextSaved ∧ s.ctx.valid = true ∨ r = .irtWithoutContext ∧ s.ctx.valid = false)

/-- HLT halts, leaves `pc = cur + 4` and changes nothing else (R237; decisions D23, D24). -/
def Obligations.HltHalts : Prop :=
  ∀ s : State, ∃ t, exec .hlt s = .next t ∧ t.halted = true ∧ t.pc = s.pc + 4 ∧ KeepsRegisters s t ∧
    t.flags = s.flags ∧ t.mode = s.mode ∧ t.ctx = s.ctx ∧ t.mapped = s.mapped ∧ KeepsMemory s t

/-- SEGMENT and DATA raise Illegal Instruction, whatever bits 25 to 0 hold (spec/49_meta.md R250, R251; decision D32). -/
def Obligations.MetaOpcodesStop : Prop :=
  ∀ (s : State) (rest : BitVec 26),
    exec (.segment rest) s = .fault (.illegalInstruction s.pc (BitVec.ofNat 32 (0x27 * 2 ^ 26 + rest.toNat))) ∧
    exec (.data rest) s = .fault (.illegalInstruction s.pc (BitVec.ofNat 32 (0x3E * 2 ^ 26 + rest.toNat)))

/-! ## The start of execution (spec/10_state.md R53, R54) -/

/-- R53: `STS` is 0 at boot, and in a state where it is 0 JNE is taken and the other conditional jumps are not. -/
def Obligations.BootFlags : Prop :=
  (∀ l : Launch, (State.launch l).sts = 0) ∧ State.reset.sts = 0 ∧
  (∀ s : State, s.sts = 0 →
    (s.flags.eq = false ∧ s.flags.gt = false ∧ s.flags.ge = false ∧ s.flags.lt = false ∧ s.flags.le = false ∧
      s.flags.z = false) ∧
    (∀ (base : Reg) (off : BitVec 16), readable s base = true →
      (∃ t, exec (.jne base off) s = .next t ∧ t.pc = regRead s base + sext16 off) ∧
      (∃ t, exec (.jeq base off) s = .next t ∧ t.pc = s.pc + 4) ∧
      (∃ t, exec (.jgt base off) s = .next t ∧ t.pc = s.pc + 4) ∧
      (∃ t, exec (.jge base off) s = .next t ∧ t.pc = s.pc + 4) ∧
      (∃ t, exec (.jlt base off) s = .next t ∧ t.pc = s.pc + 4) ∧
      (∃ t, exec (.jle base off) s = .next t ∧ t.pc = s.pc + 4)))

/-- The state when execution starts: the launch's registers, start address, mode, image and mapped set, `STS` 0, no saved
context, not halted; the reset state starts in Kernel mode (R54, spec/70_reset_and_hazards.md R300; decisions D21, D29). -/
def Obligations.LaunchState : Prop :=
  (∀ l : Launch, (State.launch l).x = l.regs ∧ (State.launch l).pc = l.pc ∧ (State.launch l).mode = l.mode ∧
    (State.launch l).mem = l.mem ∧ (State.launch l).mapped = l.mapped ∧ (State.launch l).sts = 0 ∧
    (State.launch l).ctx.valid = false ∧ (State.launch l).halted = false) ∧
  (∃ l : Launch, State.reset = State.launch l) ∧ State.reset.mode = .kernel

/-- The reset state meets both invariants: memory is canonical, and `KernelOnly` holds. Its empty memory and its Kernel
mode are the model's choices, notes/assumptions/4.md and 18.md (decision D21). -/
def Obligations.InvariantsAtReset : Prop := State.reset.mem.wf ∧ State.reset.KernelOnly

/-! ## Privilege (spec/60_exceptions.md R276 to R278) -/

/-- No step in User mode changes `idr` or `mmr` (R277; spec/10_state.md R24, R25). -/
def Obligations.UserKeepsPrivilegedRegisters : Prop :=
  ∀ s t : State, s.mode = .user → step s = .next t → t.getX 0x14 = s.getX 0x14 ∧ t.getX 0x15 = s.getX 0x15

/-- In User mode no instruction but INT learns anything of `idr` or `mmr`: with other values in them the outcome is the
same, but for these values. That no register operand names them is R277 (spec/10_state.md R24, R25). That no load or store
depends on `mmr` is the model's choice: R25 and R70 leave the effect of `mmr` on accesses to the parameter `MemPermit`,
and the model takes its default (spec/20_memory.md R70, decision D26; notes/assumptions/5.md, DESIGN CHOICE, unsafe). -/
def Obligations.UserCannotSeePrivilegedRegisters : Prop :=
  ∀ (i : Instr) (s : State) (p q : Word), s.mode = .user → i.isInt = false →
    exec i ((s.setX 0x14 p).setX 0x15 q) =
      match exec i s with
      | .next t => .next ((t.setX 0x14 p).setX 0x15 q)
      | o => o

/-- INT enters Kernel mode, IRT restores the saved mode, and no other instruction changes the mode (R278; decisions D21,
D22). -/
def Obligations.ModeTransitions : Prop :=
  ∀ (i : Instr) (s t : State), exec i s = .next t →
    (i.isInt = true → t.mode = .kernel) ∧ (i = .irt → t.mode = s.ctx.mode) ∧
    (i.isInt = false → i ≠ .irt → t.mode = s.mode)

/-- A machine in Kernel mode without a saved User context never reaches User mode (R278; decision D21). -/
def Obligations.StepKeepsKernelOnly : Prop :=
  ∀ s t : State, s.KernelOnly → step s = .next t → t.KernelOnly
end

