-- ==== Sys2Proof/Laws/Encoding.lean ====
section
/-!
SUPPORT. The fields of an encoded word and the words of given fields (spec/30_encoding.md R91, R93), and the register
indices as field values.
-/

namespace Sys2Proof

/-- Concatenation puts its left part above its right part. -/
theorem append_toNat {m n : Nat} (a : BitVec m) (b : BitVec n) : (a ++ b).toNat = a.toNat * 2 ^ n + b.toNat := by
  rw [BitVec.toNat_append, ← Nat.shiftLeft_add_eq_or_of_lt b.isLt, Nat.shiftLeft_eq]

/-! ## Register indices -/

/-- The 32 field values and the 32 indices are one set (spec/10_state.md R20). -/
theorem Reg.toBits_ofBits (b : BitVec 5) : (Reg.ofBits b).toBits = b := by
  revert b
  decide

theorem Reg.ofBits_toBits (r : Reg) : Reg.ofBits r.toBits = r := by
  cases r with
  | stored i => revert i; decide
  | zero => decide
  | noreg => decide
  | internal i => revert i; decide
  | pcx => decide
  | reserved i => revert i; decide

theorem Reg.toBits_injective {r t : Reg} (h : r.toBits = t.toBits) : r = t := by
  rw [← Reg.ofBits_toBits r, h, Reg.ofBits_toBits]

/-- Only `noreg` has the field value of an unused field. -/
theorem isN_toBits (r : Reg) : isN r.toBits = decide (r = .noreg) := by
  cases r with
  | stored i => revert i; decide
  | zero => decide
  | noreg => decide
  | internal i => revert i; decide
  | pcx => decide
  | reserved i => revert i; decide

@[simp] theorem isN_fieldN : isN fieldN = true := by decide

/-! ## Fields of an R-format word -/

section RFormat

variable (op : BitVec 6) (s1 s2 d sh : BitVec 5) (un : BitVec 6)

theorem encR_toNat : (encR op s1 s2 d sh un).toNat =
    op.toNat * 2 ^ 26 + s1.toNat * 2 ^ 21 + s2.toNat * 2 ^ 16 + d.toNat * 2 ^ 11 + sh.toNat * 2 ^ 6 + un.toNat := by
  have key : (op ++ s1 ++ s2 ++ d ++ sh ++ un).toNat =
      op.toNat * 2 ^ 26 + s1.toNat * 2 ^ 21 + s2.toNat * 2 ^ 16 + d.toNat * 2 ^ 11 + sh.toNat * 2 ^ 6 + un.toNat := by
    simp only [append_toNat]
    omega
  exact key

@[simp] theorem opField_encR : opField (encR op s1 s2 d sh un) = op := by
  apply BitVec.eq_of_toNat_eq
  simp only [opField, BitVec.extractLsb'_toNat, encR_toNat, Nat.shiftRight_eq_div_pow]
  omega

@[simp] theorem s1Field_encR : s1Field (encR op s1 s2 d sh un) = s1 := by
  apply BitVec.eq_of_toNat_eq
  simp only [s1Field, BitVec.extractLsb'_toNat, encR_toNat, Nat.shiftRight_eq_div_pow]
  omega

@[simp] theorem s2Field_encR : s2Field (encR op s1 s2 d sh un) = s2 := by
  apply BitVec.eq_of_toNat_eq
  simp only [s2Field, BitVec.extractLsb'_toNat, encR_toNat, Nat.shiftRight_eq_div_pow]
  omega

@[simp] theorem dField_encR : dField (encR op s1 s2 d sh un) = d := by
  apply BitVec.eq_of_toNat_eq
  simp only [dField, BitVec.extractLsb'_toNat, encR_toNat, Nat.shiftRight_eq_div_pow]
  omega

@[simp] theorem shField_encR : shField (encR op s1 s2 d sh un) = sh := by
  apply BitVec.eq_of_toNat_eq
  simp only [shField, BitVec.extractLsb'_toNat, encR_toNat, Nat.shiftRight_eq_div_pow]
  omega

@[simp] theorem unField_encR : unField (encR op s1 s2 d sh un) = un := by
  apply BitVec.eq_of_toNat_eq
  simp only [unField, BitVec.extractLsb'_toNat, encR_toNat, Nat.shiftRight_eq_div_pow]
  omega

end RFormat

/-- Every word is the R-format word of its fields. -/
theorem encR_fields (w : Word) :
    encR (opField w) (s1Field w) (s2Field w) (dField w) (shField w) (unField w) = w := by
  apply BitVec.eq_of_toNat_eq
  have := w.isLt
  simp only [encR_toNat, opField, s1Field, s2Field, dField, shField, unField, BitVec.extractLsb'_toNat,
    Nat.shiftRight_eq_div_pow]
  omega

/-! ## Fields of an I-format word -/

section IFormat

variable (op : BitVec 6) (s d : BitVec 5) (imm : BitVec 16)

theorem encI_toNat : (encI op s d imm).toNat =
    op.toNat * 2 ^ 26 + s.toNat * 2 ^ 21 + d.toNat * 2 ^ 16 + imm.toNat := by
  have key : (op ++ s ++ d ++ imm).toNat = op.toNat * 2 ^ 26 + s.toNat * 2 ^ 21 + d.toNat * 2 ^ 16 + imm.toNat := by
    simp only [append_toNat]
    omega
  exact key

@[simp] theorem opField_encI : opField (encI op s d imm) = op := by
  apply BitVec.eq_of_toNat_eq
  simp only [opField, BitVec.extractLsb'_toNat, encI_toNat, Nat.shiftRight_eq_div_pow]
  omega

@[simp] theorem s1Field_encI : s1Field (encI op s d imm) = s := by
  apply BitVec.eq_of_toNat_eq
  simp only [s1Field, BitVec.extractLsb'_toNat, encI_toNat, Nat.shiftRight_eq_div_pow]
  omega

@[simp] theorem s2Field_encI : s2Field (encI op s d imm) = d := by
  apply BitVec.eq_of_toNat_eq
  simp only [s2Field, BitVec.extractLsb'_toNat, encI_toNat, Nat.shiftRight_eq_div_pow]
  omega

@[simp] theorem immField_encI : immField (encI op s d imm) = imm := by
  apply BitVec.eq_of_toNat_eq
  simp only [immField, BitVec.extractLsb'_toNat, encI_toNat, Nat.shiftRight_eq_div_pow]
  omega

end IFormat

/-- Every word is the I-format word of its fields. -/
theorem encI_fields (w : Word) : encI (opField w) (s1Field w) (s2Field w) (immField w) = w := by
  apply BitVec.eq_of_toNat_eq
  have := w.isLt
  simp only [encI_toNat, opField, s1Field, s2Field, immField, BitVec.extractLsb'_toNat, Nat.shiftRight_eq_div_pow]
  omega

/-! ## Fields of a meta word -/

section Meta

variable (op : BitVec 6) (rest : BitVec 26)

theorem encMeta_toNat : (encMeta op rest).toNat = op.toNat * 2 ^ 26 + rest.toNat :=
  append_toNat op rest

@[simp] theorem opField_encMeta : opField (encMeta op rest) = op := by
  apply BitVec.eq_of_toNat_eq
  simp only [opField, BitVec.extractLsb'_toNat, encMeta_toNat, Nat.shiftRight_eq_div_pow]
  omega

@[simp] theorem restField_encMeta : restField (encMeta op rest) = rest := by
  apply BitVec.eq_of_toNat_eq
  simp only [restField, BitVec.extractLsb'_toNat, encMeta_toNat, Nat.shiftRight_eq_div_pow]
  omega

end Meta

/-- Every word is the meta word of its fields. -/
theorem encMeta_fields (w : Word) : encMeta (opField w) (restField w) = w := by
  apply BitVec.eq_of_toNat_eq
  have := w.isLt
  simp only [encMeta_toNat, opField, restField, BitVec.extractLsb'_toNat, Nat.shiftRight_eq_div_pow]
  omega

/-! ## A word from its fields -/

theorem encR_eq_iff (op : BitVec 6) (s1 s2 d sh : BitVec 5) (un : BitVec 6) (w : Word) :
    encR op s1 s2 d sh un = w ↔
      op = opField w ∧ s1 = s1Field w ∧ s2 = s2Field w ∧ d = dField w ∧ sh = shField w ∧ un = unField w := by
  constructor
  · rintro rfl
    simp
  · rintro ⟨rfl, rfl, rfl, rfl, rfl, rfl⟩
    exact encR_fields w

theorem encI_eq_iff (op : BitVec 6) (s d : BitVec 5) (imm : BitVec 16) (w : Word) :
    encI op s d imm = w ↔ op = opField w ∧ s = s1Field w ∧ d = s2Field w ∧ imm = immField w := by
  constructor
  · rintro rfl
    simp
  · rintro ⟨rfl, rfl, rfl, rfl⟩
    exact encI_fields w

theorem encMeta_eq_iff (op : BitVec 6) (rest : BitVec 26) (w : Word) :
    encMeta op rest = w ↔ op = opField w ∧ rest = restField w := by
  constructor
  · rintro rfl
    simp
  · rintro ⟨rfl, rfl⟩
    exact encMeta_fields w

/-! ## The fixed field check -/

theorem checked_eq_ok {b : Bool} {i j : Instr} : checked b i = .ok j ↔ b = true ∧ i = j := by
  cases b <;> simp [checked]

theorem isN_iff (f : BitVec 5) : isN f = true ↔ f = fieldN := by simp [isN, fieldN]

theorem shUnZero_iff (w : Word) : shUnZero w = true ↔ shField w = 0 ∧ unField w = 0 := by
  simp [shUnZero]

end Sys2Proof
end

