-- ==== Sys2Proof/Laws/Memory.lean ====
section
/-!
SUPPORT. The laws of memory: a read after a write, the canonical form kept by every write, and the bytes of a wide
access (spec/20_memory.md R62 to R67).
-/

namespace Sys2Proof.Machine

/-! ## One byte -/

theorem Memory.get_nil (a : Nat) : Memory.get [] a = Memory.unlisted := rfl

theorem Memory.get_cons (b : Nat) (v : Byte) (m : Memory) (a : Nat) :
    Memory.get ((b, v) :: m) a = if b < a then m.get a else if b = a then v else Memory.unlisted := rfl

theorem Memory.set_nil (a : Nat) (v : Byte) :
    Memory.set [] a v = if v = Memory.unlisted then [] else [(a, v)] := by
  simp [Memory.set]

/-- A write below the first entry or at it does not look further; above it, the entry stays. -/
theorem Memory.set_cons (c : Host.Cell) (m : Memory) (a : Nat) (v : Byte) :
    Memory.set (c :: m) a v =
      if c.1 < a then c :: m.set a v
      else (if v = Memory.unlisted then [] else [(a, v)]) ++ (c :: m).dropWhile (fun d => d.1 ≤ a) := by
  by_cases h : c.1 < a
  · have h' : c.1 ≤ a := h.le
    simp [Memory.set, h, h']
  · simp [Memory.set, h]

/-- Entries at or below `a` are not seen by a read above `a`. -/
theorem Memory.get_dropWhile (m : Memory) (a b : Nat) :
    Memory.get (m.dropWhile (fun d => d.1 ≤ a)) b = if a < b then m.get b else Memory.unlisted := by
  induction m with
  | nil => simp [Memory.get_nil]
  | cons c m ih =>
    obtain ⟨d, w⟩ := c
    by_cases h : d ≤ a
    · rw [List.dropWhile_cons_of_pos (by simpa using h), ih]
      by_cases hab : a < b
      · simp [hab, Memory.get_cons, show d < b by omega]
      · simp [hab]
    · rw [List.dropWhile_cons_of_neg (by simpa using h)]
      by_cases hab : a < b
      · simp [hab]
      · simp [hab, Memory.get_cons, show ¬ d < b by omega, show d ≠ b by omega]

/-- Read after write, at every address: the written one holds the value, every other one is left alone. It holds of
every list, canonical or not. -/
theorem Memory.get_set (m : Memory) (a b : Nat) (v : Byte) :
    (m.set a v).get b = if b = a then v else m.get b := by
  induction m with
  | nil =>
    by_cases hv : v = Memory.unlisted
    · simp [Memory.set_nil, hv, Memory.get_nil]
    · by_cases hb : b = a
      · simp [Memory.set_nil, hv, Memory.get_cons, hb]
      · simp [Memory.set_nil, hv, Memory.get_cons, hb, Ne.symm hb, Memory.get_nil]
  | cons c m ih =>
    obtain ⟨d, w⟩ := c
    rw [Memory.set_cons]
    by_cases h : d < a
    · simp only [h, if_true, Memory.get_cons, ih]
      split_ifs <;> first | rfl | omega
    · simp only [h, if_false]
      by_cases hv : v = Memory.unlisted
      · simp only [hv, if_true, List.nil_append, Memory.get_dropWhile]
        by_cases hb : b = a
        · simp [hb]
        · by_cases hab : a < b
          · simp [hab, hb]
          · simp [hab, hb, Memory.get_cons, show ¬ d < b by omega, show d ≠ b by omega]
      · simp only [hv, if_false, List.singleton_append, Memory.get_cons (b := a), Memory.get_dropWhile]
        by_cases hb : b = a
        · simp [hb]
        · by_cases hab : a < b
          · simp [hab, hb]
          · simp [hab, hb, Ne.symm hb, Memory.get_cons, show ¬ d < b by omega, show d ≠ b by omega]

/-! ## The canonical form -/

theorem Memory.wf_nil : Memory.wf [] := by simp [Memory.wf]

/-- A write of one byte of the address space keeps the canonical form. -/
theorem Memory.wf_set {m : Memory} (h : m.wf) {a : Nat} (ha : a < 2 ^ 32) (v : Byte) : (m.set a v).wf := by
  obtain ⟨hs, hc⟩ := h
  have hdrop : ∀ d ∈ m.dropWhile (fun c => decide (c.1 ≤ a)), a < d.1 := by
    clear hc
    induction m with
    | nil => simp
    | cons c m ih =>
      rw [List.pairwise_cons] at hs
      by_cases hca : c.1 ≤ a
      · rw [List.dropWhile_cons_of_pos (by simpa using hca)]
        exact ih hs.2
      · rw [List.dropWhile_cons_of_neg (by simpa using hca)]
        intro d hd
        rcases List.mem_cons.1 hd with rfl | hd
        · omega
        · have := hs.1 d hd
          omega
  have htake : ∀ d ∈ m.takeWhile (fun c => decide (c.1 < a)), d.1 < a := fun d hd => by
    simpa using List.mem_takeWhile_imp hd
  have hmid : ∀ d ∈ (if v = Memory.unlisted then [] else [(a, v)] : Memory), d.1 = a ∧ d.2 ≠ Memory.unlisted := by
    intro d hd
    split_ifs at hd with hv
    · simp at hd
    · simp only [List.mem_singleton] at hd
      subst hd
      exact ⟨rfl, hv⟩
  refine ⟨?_, ?_⟩
  · unfold Memory.set
    rw [List.pairwise_append, List.pairwise_append]
    refine ⟨⟨hs.sublist (List.takeWhile_sublist _), ?_, ?_⟩, hs.sublist (List.dropWhile_sublist _), ?_⟩
    · split_ifs <;> simp
    · intro c hc' d hd
      have := htake c hc'
      have := (hmid d hd).1
      omega
    · intro c hc' d hd
      have := hdrop d hd
      rcases List.mem_append.1 hc' with h | h
      · have := htake c h
        omega
      · have := (hmid c h).1
        omega
  · intro c hcm
    unfold Memory.set at hcm
    rcases List.mem_append.1 hcm with h | h
    · rcases List.mem_append.1 h with h | h
      · exact hc c ((List.takeWhile_sublist _).subset h)
      · have := hmid c h
        exact ⟨by omega, this.2⟩
    · exact hc c ((List.dropWhile_sublist _).subset h)

/-! ## The bytes of an access -/

theorem byteAddr_lt (addr : Word) (k : Nat) : byteAddr addr k < 2 ^ 32 := BitVec.isLt _

/-- Different bytes of one access have different addresses. -/
theorem byteAddr_inj (addr : Word) {j k : Nat} (hj : j < 4) (hk : k < 4) :
    byteAddr addr j = byteAddr addr k ↔ j = k := by
  have := addr.isLt
  simp only [byteAddr, BitVec.toNat_add, BitVec.toNat_ofNat]
  omega

/-- An aligned access never wraps: its bytes lie at consecutive addresses. -/
theorem byteAddr_aligned {addr : Word} {sz : Size} (h : aligned addr sz = true) {k : Nat} (hk : k < sz.bytes) :
    byteAddr addr k = addr.toNat + k := by
  have hl := addr.isLt
  have hm : addr.toNat % sz.bytes = 0 := by simpa [aligned] using h
  simp only [byteAddr, BitVec.toNat_add, BitVec.toNat_ofNat]
  cases sz <;> simp only [Size.bytes] at hm hk <;> omega

/-- A store keeps the canonical form. -/
theorem Memory.wf_store {m : Memory} (h : m.wf) (addr v : Word) (n : Nat) : (m.store addr v n).wf := by
  induction n with
  | zero => exact h
  | succ k ih => exact Memory.wf_set ih (byteAddr_lt addr k) _

/-- The bytes a store writes. -/
theorem Memory.get_store_byte (m : Memory) (addr v : Word) {n k : Nat} (hn : n ≤ 4) (hk : k < n) :
    (m.store addr v n).get (byteAddr addr k) = byteOf v k := by
  induction n with
  | zero => omega
  | succ j ih =>
    simp only [Memory.store, Memory.get_set, byteAddr_inj addr (show k < 4 by omega) (show j < 4 by omega)]
    by_cases h : k = j
    · simp [h]
    · simp [h, ih (by omega) (by omega)]

/-- The bytes a store leaves alone. -/
theorem Memory.get_store_other (m : Memory) (addr v : Word) (n : Nat) {a : Nat}
    (h : ∀ k < n, a ≠ byteAddr addr k) : (m.store addr v n).get a = m.get a := by
  induction n with
  | zero => rfl
  | succ j ih =>
    simp [Memory.store, Memory.get_set, h j (Nat.lt_succ_self j), ih fun k hk => h k (Nat.lt_succ_of_lt hk)]

/-- A word is made of its bytes. -/
theorem wordOfBytes_byteOf (v : Word) : wordOfBytes (byteOf v 0) (byteOf v 1) (byteOf v 2) (byteOf v 3) = v := by
  have key : ∀ u : BitVec (8 + 8 + 8 + 8), u.extractLsb' 24 8 ++ u.extractLsb' 16 8 ++ u.extractLsb' 8 8 ++
      u.extractLsb' 0 8 = u := by
    intro u
    ext i hi
    simp only [BitVec.getElem_append, BitVec.getElem_extractLsb']
    split_ifs <;> rw [← BitVec.getLsbD_eq_getElem] <;> congr 1 <;> omega
  exact key v

/-- The bytes of a word made of bytes. -/
theorem byteOf_wordOfBytes (b0 b1 b2 b3 : Byte) :
    byteOf (wordOfBytes b0 b1 b2 b3) 0 = b0 ∧ byteOf (wordOfBytes b0 b1 b2 b3) 1 = b1 ∧
      byteOf (wordOfBytes b0 b1 b2 b3) 2 = b2 ∧ byteOf (wordOfBytes b0 b1 b2 b3) 3 = b3 := by
  have key : ∀ k (h : k < 8) j, (b3 ++ b2 ++ b1 ++ b0 : BitVec (8 + 8 + 8 + 8)).getLsbD (8 * j + k) =
      if j = 0 then b0.getLsbD k else if j = 1 then b1.getLsbD k else if j = 2 then b2.getLsbD k
      else b3.getLsbD (8 * (j - 3) + k) := by
    intro k h j
    simp only [BitVec.getLsbD_append]
    split_ifs <;> first | omega | (subst_vars; congr 1; omega)
  refine ⟨?_, ?_, ?_, ?_⟩ <;> ext i hi <;>
    simp only [byteOf, wordOfBytes, ← BitVec.getLsbD_eq_getElem, BitVec.getLsbD_extractLsb']
  · simpa [hi] using key i hi 0
  · simpa [hi] using key i hi 1
  · simpa [hi] using key i hi 2
  · simpa [hi] using key i hi 3

/-- The bytes of a loaded word. -/
theorem byteOf_load_word (m : Memory) (a : Word) {k : Nat} (hk : k < 4) :
    byteOf (m.load a .word) k = m.get (byteAddr a k) := by
  obtain ⟨h0, h1, h2, h3⟩ := byteOf_wordOfBytes (m.get (byteAddr a 0)) (m.get (byteAddr a 1)) (m.get (byteAddr a 2))
    (m.get (byteAddr a 3))
  simp only [Memory.load]
  interval_cases k <;> assumption

/-- The bytes of a loaded halfword. -/
theorem byteOf_load_half (m : Memory) (a : Word) :
    byteOf (m.load a .half) 0 = m.get (byteAddr a 0) ∧ byteOf (m.load a .half) 1 = m.get (byteAddr a 1) := by
  have key : ∀ u v : Byte, (zext16 (u ++ v)).toNat = u.toNat * 2 ^ 8 + v.toNat := by
    intro u v
    have := u.isLt
    have := v.isLt
    have e : (u ++ v).toNat = u.toNat * 2 ^ 8 + v.toNat := append_toNat u v
    simp only [zext16, BitVec.toNat_setWidth, e]
    omega
  have h0 := (m.get (byteAddr a 0)).isLt
  have h1 := (m.get (byteAddr a 1)).isLt
  constructor <;> apply BitVec.eq_of_toNat_eq <;>
    simp only [Memory.load, byteOf, BitVec.extractLsb'_toNat, key, Nat.shiftRight_eq_div_pow] <;> omega

/-! ## Alignment as bits of the address (spec/20_memory.md R65) -/

theorem aligned_byte (a : Word) : aligned a .byte = true := by
  simp [aligned, Size.bytes, Nat.mod_one]

theorem aligned_half (a : Word) : aligned a .half = !a.getLsbD 0 := by
  simp only [aligned, Size.bytes, BitVec.getLsbD, Nat.testBit_zero]
  rcases Nat.mod_two_eq_zero_or_one a.toNat with h | h <;> simp [h]

theorem aligned_word (a : Word) : aligned a .word = decide (a.extractLsb' 0 2 = 0) := by
  have key : a.extractLsb' 0 2 = 0 ↔ a.toNat % 4 = 0 := by
    rw [← BitVec.toNat_inj]
    simp
  simp only [aligned, Size.bytes]
  by_cases h : a.toNat % 4 = 0
  · rw [decide_eq_true (key.2 h)]
    simp [h]
  · rw [decide_eq_false fun e => h (key.1 e)]
    simp [h]

/-- A word read back where it was stored. -/
theorem Memory.load_store_word (m : Memory) (addr v : Word) : (m.store addr v 4).load addr .word = v := by
  simp only [Memory.load, Memory.get_store_byte m addr v (Nat.le_refl 4) (show 0 < 4 by decide),
    Memory.get_store_byte m addr v (Nat.le_refl 4) (show 1 < 4 by decide),
    Memory.get_store_byte m addr v (Nat.le_refl 4) (show 2 < 4 by decide),
    Memory.get_store_byte m addr v (Nat.le_refl 4) (show 3 < 4 by decide), wordOfBytes_byteOf]

end Sys2Proof.Machine
end

