-- ==== Sys2Proof/Laws/State.lean ====
section
/-!
SUPPORT. One lemma per field per update of the state, so that no later proof unfolds a record update.
-/

namespace Sys2Proof.Machine

/-! ## The register file -/

theorem State.getX_setX (s : State) (i j : Fin 22) (v : Word) :
    (s.setX i v).getX j = if j = i then v else s.getX j := by
  simp [State.setX, State.getX, Vector.get_eq_getElem, Vector.getElem_set, Fin.ext_iff, eq_comm]

@[simp] theorem State.getX_setX_self (s : State) (i : Fin 22) (v : Word) : (s.setX i v).getX i = v := by
  simp [State.getX_setX]

@[simp] theorem State.getX_setX_ne (s : State) {i j : Fin 22} (v : Word) (h : j ≠ i) :
    (s.setX i v).getX j = s.getX j := by
  simp [State.getX_setX, h]

/-! ## `setX` -/

@[simp] theorem State.setX_pc (s : State) (i : Fin 22) (v : Word) : (s.setX i v).pc = s.pc := rfl

@[simp] theorem State.setX_flags (s : State) (i : Fin 22) (v : Word) : (s.setX i v).flags = s.flags := rfl

@[simp] theorem State.setX_mode (s : State) (i : Fin 22) (v : Word) : (s.setX i v).mode = s.mode := rfl

@[simp] theorem State.setX_ctx (s : State) (i : Fin 22) (v : Word) : (s.setX i v).ctx = s.ctx := rfl

@[simp] theorem State.setX_halted (s : State) (i : Fin 22) (v : Word) : (s.setX i v).halted = s.halted := rfl

@[simp] theorem State.setX_mem (s : State) (i : Fin 22) (v : Word) : (s.setX i v).mem = s.mem := rfl

@[simp] theorem State.setX_mapped (s : State) (i : Fin 22) (v : Word) : (s.setX i v).mapped = s.mapped := rfl

@[simp] theorem State.setX_undefDraws (s : State) (i : Fin 22) (v : Word) : (s.setX i v).undefDraws = s.undefDraws := rfl

/-! ## `advance` -/

@[simp] theorem State.advance_x (s : State) : (s.advance).x = s.x := rfl

@[simp] theorem State.advance_pc (s : State) :
    (s.advance).pc = s.pc + 4 := rfl

@[simp] theorem State.advance_flags (s : State) : (s.advance).flags = s.flags := rfl

@[simp] theorem State.advance_mode (s : State) : (s.advance).mode = s.mode := rfl

@[simp] theorem State.advance_ctx (s : State) : (s.advance).ctx = s.ctx := rfl

@[simp] theorem State.advance_halted (s : State) : (s.advance).halted = s.halted := rfl

@[simp] theorem State.advance_mem (s : State) : (s.advance).mem = s.mem := rfl

@[simp] theorem State.advance_mapped (s : State) : (s.advance).mapped = s.mapped := rfl

@[simp] theorem State.advance_undefDraws (s : State) : (s.advance).undefDraws = s.undefDraws := rfl

@[simp] theorem State.advance_getX (s : State) (j : Fin 22) : (s.advance).getX j = s.getX j := rfl

/-! ## `setFlags` -/

@[simp] theorem State.setFlags_x (s : State) (eq gt ge lt le z : Bool) : (s.setFlags eq gt ge lt le z).x = s.x := rfl

@[simp] theorem State.setFlags_pc (s : State) (eq gt ge lt le z : Bool) : (s.setFlags eq gt ge lt le z).pc = s.pc := rfl

@[simp] theorem State.setFlags_mode (s : State) (eq gt ge lt le z : Bool) : (s.setFlags eq gt ge lt le z).mode = s.mode := rfl

@[simp] theorem State.setFlags_ctx (s : State) (eq gt ge lt le z : Bool) : (s.setFlags eq gt ge lt le z).ctx = s.ctx := rfl

@[simp] theorem State.setFlags_halted (s : State) (eq gt ge lt le z : Bool) : (s.setFlags eq gt ge lt le z).halted = s.halted := rfl

@[simp] theorem State.setFlags_mem (s : State) (eq gt ge lt le z : Bool) : (s.setFlags eq gt ge lt le z).mem = s.mem := rfl

@[simp] theorem State.setFlags_mapped (s : State) (eq gt ge lt le z : Bool) : (s.setFlags eq gt ge lt le z).mapped = s.mapped := rfl

@[simp] theorem State.setFlags_undefDraws (s : State) (eq gt ge lt le z : Bool) : (s.setFlags eq gt ge lt le z).undefDraws = s.undefDraws := rfl

@[simp] theorem State.setFlags_getX (s : State) (eq gt ge lt le z : Bool) (j : Fin 22) : (s.setFlags eq gt ge lt le z).getX j = s.getX j := rfl

/-! ## `setCompareFlags` -/

@[simp] theorem setCompareFlags_x (s : State) (a b : Word) : (setCompareFlags s a b).x = s.x := rfl

@[simp] theorem setCompareFlags_pc (s : State) (a b : Word) : (setCompareFlags s a b).pc = s.pc := rfl

@[simp] theorem setCompareFlags_mode (s : State) (a b : Word) : (setCompareFlags s a b).mode = s.mode := rfl

@[simp] theorem setCompareFlags_ctx (s : State) (a b : Word) : (setCompareFlags s a b).ctx = s.ctx := rfl

@[simp] theorem setCompareFlags_halted (s : State) (a b : Word) : (setCompareFlags s a b).halted = s.halted := rfl

@[simp] theorem setCompareFlags_mem (s : State) (a b : Word) : (setCompareFlags s a b).mem = s.mem := rfl

@[simp] theorem setCompareFlags_mapped (s : State) (a b : Word) : (setCompareFlags s a b).mapped = s.mapped := rfl

@[simp] theorem setCompareFlags_undefDraws (s : State) (a b : Word) : (setCompareFlags s a b).undefDraws = s.undefDraws := rfl

@[simp] theorem setCompareFlags_getX (s : State) (a b : Word) (j : Fin 22) : (setCompareFlags s a b).getX j = s.getX j := rfl

/-! ## `setResultFlags` -/

@[simp] theorem setResultFlags_x (s : State) (r : Word) : (setResultFlags s r).x = s.x := rfl

@[simp] theorem setResultFlags_pc (s : State) (r : Word) : (setResultFlags s r).pc = s.pc := rfl

@[simp] theorem setResultFlags_mode (s : State) (r : Word) : (setResultFlags s r).mode = s.mode := rfl

@[simp] theorem setResultFlags_ctx (s : State) (r : Word) : (setResultFlags s r).ctx = s.ctx := rfl

@[simp] theorem setResultFlags_halted (s : State) (r : Word) : (setResultFlags s r).halted = s.halted := rfl

@[simp] theorem setResultFlags_mem (s : State) (r : Word) : (setResultFlags s r).mem = s.mem := rfl

@[simp] theorem setResultFlags_mapped (s : State) (r : Word) : (setResultFlags s r).mapped = s.mapped := rfl

@[simp] theorem setResultFlags_undefDraws (s : State) (r : Word) :
    (setResultFlags s r).undefDraws = s.undefDraws + 5 := rfl

@[simp] theorem setResultFlags_getX (s : State) (r : Word) (j : Fin 22) : (setResultFlags s r).getX j = s.getX j := rfl

/-! ## `regWrite` -/

@[simp] theorem regWrite_pc (s : State) (r : Reg) (v : Word) : (regWrite s r v).pc = s.pc := by
  cases r <;> rfl

@[simp] theorem regWrite_flags (s : State) (r : Reg) (v : Word) : (regWrite s r v).flags = s.flags := by
  cases r <;> rfl

@[simp] theorem regWrite_mode (s : State) (r : Reg) (v : Word) : (regWrite s r v).mode = s.mode := by
  cases r <;> rfl

@[simp] theorem regWrite_ctx (s : State) (r : Reg) (v : Word) : (regWrite s r v).ctx = s.ctx := by
  cases r <;> rfl

@[simp] theorem regWrite_halted (s : State) (r : Reg) (v : Word) : (regWrite s r v).halted = s.halted := by
  cases r <;> rfl

@[simp] theorem regWrite_mem (s : State) (r : Reg) (v : Word) : (regWrite s r v).mem = s.mem := by
  cases r <;> rfl

@[simp] theorem regWrite_mapped (s : State) (r : Reg) (v : Word) : (regWrite s r v).mapped = s.mapped := by
  cases r <;> rfl

@[simp] theorem regWrite_undefDraws (s : State) (r : Reg) (v : Word) : (regWrite s r v).undefDraws = s.undefDraws := by
  cases r <;> rfl

/-- What a register write leaves in every stored register. -/
theorem regWrite_getX (s : State) (r : Reg) (v : Word) (j : Fin 22) :
    (regWrite s r v).getX j = if r = .stored j then v else s.getX j := by
  cases r <;> simp [regWrite, State.getX_setX, eq_comm]

/-! ## `trapEntry` and `trapReturn` -/

@[simp] theorem trapEntry_pc (s : State) (h : Word) :
    (trapEntry s h).pc = h := rfl

@[simp] theorem trapEntry_flags (s : State) (h : Word) :
    (trapEntry s h).flags = s.flags := rfl

@[simp] theorem trapEntry_mode (s : State) (h : Word) :
    (trapEntry s h).mode = .kernel := rfl

@[simp] theorem trapEntry_ctx (s : State) (h : Word) :
    (trapEntry s h).ctx = { valid := true, bpr := s.getX bprIndex, mode := s.mode } := rfl

@[simp] theorem trapEntry_halted (s : State) (h : Word) :
    (trapEntry s h).halted = s.halted := rfl

@[simp] theorem trapEntry_mem (s : State) (h : Word) :
    (trapEntry s h).mem = s.mem := rfl

@[simp] theorem trapEntry_mapped (s : State) (h : Word) :
    (trapEntry s h).mapped = s.mapped := rfl

@[simp] theorem trapEntry_undefDraws (s : State) (h : Word) :
    (trapEntry s h).undefDraws = s.undefDraws := rfl

theorem trapEntry_getX (s : State) (h : Word) (j : Fin 22) :
    (trapEntry s h).getX j =
      if j = bprIndex then Config.kernelStackAddr else if j = retIndex then s.pc + 4 else s.getX j := by
  change ((s.setX retIndex (nextPc s)).setX bprIndex Config.kernelStackAddr).getX j = _
  simp [State.getX_setX, nextPc]

@[simp] theorem trapReturn_pc (s : State) : (trapReturn s).pc = s.getX retIndex := rfl

@[simp] theorem trapReturn_flags (s : State) : (trapReturn s).flags = s.flags := rfl

@[simp] theorem trapReturn_mode (s : State) : (trapReturn s).mode = s.ctx.mode := rfl

@[simp] theorem trapReturn_ctx (s : State) : (trapReturn s).ctx = { s.ctx with valid := false } := rfl

@[simp] theorem trapReturn_halted (s : State) : (trapReturn s).halted = s.halted := rfl

@[simp] theorem trapReturn_mem (s : State) : (trapReturn s).mem = s.mem := rfl

@[simp] theorem trapReturn_mapped (s : State) : (trapReturn s).mapped = s.mapped := rfl

@[simp] theorem trapReturn_undefDraws (s : State) : (trapReturn s).undefDraws = s.undefDraws := rfl

theorem trapReturn_getX (s : State) (j : Fin 22) :
    (trapReturn s).getX j = if j = bprIndex then s.ctx.bpr else s.getX j := by
  change (s.setX bprIndex s.ctx.bpr).getX j = _
  simp [State.getX_setX]

/-! ## The flags -/

@[simp] theorem State.setFlags_flags (s : State) (eq gt ge lt le z : Bool) :
    (s.setFlags eq gt ge lt le z).flags = { eq := eq, gt := gt, ge := ge, lt := lt, le := le, z := z } := rfl

@[simp] theorem setCompareFlags_flags (s : State) (a b : Word) :
    (setCompareFlags s a b).flags =
      { eq := a == b
        gt := decide (b.toInt < a.toInt)
        ge := decide (b.toInt ≤ a.toInt)
        lt := decide (a.toInt < b.toInt)
        le := decide (a.toInt ≤ b.toInt)
        z := a == b } := rfl

@[simp] theorem setResultFlags_flags (s : State) (r : Word) :
    (setResultFlags s r).flags =
      { eq := Config.undefFlag s.undefDraws
        gt := Config.undefFlag (s.undefDraws + 1)
        ge := Config.undefFlag (s.undefDraws + 2)
        lt := Config.undefFlag (s.undefDraws + 3)
        le := Config.undefFlag (s.undefDraws + 4)
        z := r == 0 } := rfl

/-- The status word depends on the flags alone. -/
theorem State.sts_congr {s t : State} (h : t.flags = s.flags) : t.sts = s.sts := by
  simp [State.sts, h]

/-- The status word at boot. -/
@[simp] theorem State.launch_sts (l : Launch) : (State.launch l).sts = 0 := by
  show 0#26 ++ flagBits ⟨false, false, false, false, false, false⟩ = 0
  decide

/-- The reserved bits of the status word are 0. -/
theorem State.sts_reserved (s : State) : s.sts.extractLsb' 6 26 = 0 := by
  rcases h : s.flags with ⟨eq, gt, ge, lt, le, z⟩
  simp only [State.sts, h]
  cases eq <;> cases gt <;> cases ge <;> cases lt <;> cases le <;> cases z <;> rfl

/-- Each flag at its bit of the status word. -/
theorem State.sts_bits (s : State) :
    s.sts.getLsbD 0 = s.flags.eq ∧ s.sts.getLsbD 1 = s.flags.gt ∧ s.sts.getLsbD 2 = s.flags.ge ∧
      s.sts.getLsbD 3 = s.flags.lt ∧ s.sts.getLsbD 4 = s.flags.le ∧ s.sts.getLsbD 5 = s.flags.z := by
  rcases h : s.flags with ⟨eq, gt, ge, lt, le, z⟩
  simp only [State.sts, h]
  cases eq <;> cases gt <;> cases ge <;> cases lt <;> cases le <;> cases z <;> decide

end Sys2Proof.Machine
end

