-- ==== Sys2Proof/Laws/Ops.lean ====
section
/-!
SUPPORT. One lemma per shared operation that says once everything it can do: the access primitives, the register checks,
and how an instruction is put together from them.
-/

namespace Sys2Proof.Machine

/-! ## Access checks (spec/20_memory.md R65 to R70) -/

theorem memPermit_iff (s : State) (kind : AccessKind) (addr : Word) (sz : Size) :
    memPermit s kind addr sz = true ↔
      ∀ k < sz.bytes, ∃ r ∈ s.mapped, r.base ≤ byteAddr addr k ∧ byteAddr addr k < r.base + r.size := by
  simp [memPermit, Region.contains]

theorem accessFault_eq_none (s : State) (kind : AccessKind) (addr : Word) (sz : Size) :
    accessFault s kind addr sz = none ↔ Accessible s addr sz := by
  unfold accessFault Accessible
  rw [← memPermit_iff s kind]
  split_ifs <;> simp_all

theorem accessFault_eq_some (s : State) (kind : AccessKind) (addr : Word) (sz : Size) (f : Fault) :
    accessFault s kind addr sz = some f ↔
      aligned addr sz = false ∧ f = .alignmentFault s.pc addr ∨
      aligned addr sz = true ∧ memPermit s kind addr sz = false ∧ f = .memoryAccessViolation s.pc addr := by
  unfold accessFault
  split_ifs with ha hp
  · simp [ha, hp]
  · simp [ha, hp, eq_comm (a := f)]
  · simp [ha, eq_comm (a := f)]

theorem memRead_eq_ok (s : State) (addr : Word) (sz : Size) (v : Word) :
    memRead s addr sz = .ok v ↔ Accessible s addr sz ∧ v = s.mem.load addr sz := by
  unfold memRead
  rw [← accessFault_eq_none s .read]
  split
  · rename_i h
    simp [h]
  · rename_i h
    simp [h, eq_comm (a := v)]

theorem memRead_eq_error (s : State) (addr : Word) (sz : Size) (f : Fault) :
    memRead s addr sz = .error f ↔ accessFault s .read addr sz = some f := by
  unfold memRead
  split <;> simp_all

theorem memWrite_eq_ok (s : State) (addr : Word) (sz : Size) (v : Word) (t : State) :
    memWrite s addr sz v = .ok t ↔ Accessible s addr sz ∧ t = { s with mem := s.mem.store addr v sz.bytes } := by
  unfold memWrite
  rw [← accessFault_eq_none s .write]
  split
  · rename_i h
    simp [h]
  · rename_i h
    simp [h, eq_comm (a := t)]

theorem memWrite_eq_error (s : State) (addr : Word) (sz : Size) (v : Word) (f : Fault) :
    memWrite s addr sz v = .error f ↔ accessFault s .write addr sz = some f := by
  unfold memWrite
  split <;> simp_all

theorem fetch_eq_ok (s : State) (w : Word) :
    fetch s = .ok w ↔ Accessible s s.pc .word ∧ w = s.mem.load s.pc .word := by
  unfold fetch
  rw [← accessFault_eq_none s .fetch]
  split
  · rename_i h
    simp [h]
  · rename_i h
    simp [h, eq_comm (a := w)]

theorem fetch_eq_error (s : State) (f : Fault) : fetch s = .error f ↔ accessFault s .fetch s.pc .word = some f := by
  unfold fetch
  split <;> simp_all

/-! ## Going on or raising -/

theorem attempt_eq_next {α : Type} (e : Except Fault α) (k : α → Result) (t : State) :
    attempt e k = .next t ↔ ∃ a, e = .ok a ∧ k a = .next t := by
  cases e <;> simp [attempt, raise]

theorem attempt_eq_fault {α : Type} (e : Except Fault α) (k : α → Result) (f : Fault) :
    attempt e k = .fault f ↔ e = .error f ∨ ∃ a, e = .ok a ∧ k a = .fault f := by
  cases e <;> simp [attempt, raise]

theorem attempt_eq_refused {α : Type} (e : Except Fault α) (k : α → Result) (r : Refusal) :
    attempt e k = .refused r ↔ ∃ a, e = .ok a ∧ k a = .refused r := by
  cases e <;> simp [attempt, raise]

/-! ## Register checks (spec/10_state.md R33 to R35) -/

theorem checkUses_eq_none (s : State) (w : Word) (uses : List Use) :
    checkUses s w uses = none ↔ ∀ u ∈ uses, illegalOperand u.reg = false ∧ u.protected s = false := by
  unfold checkUses
  split_ifs with h
  · simp only [List.any_eq_true] at h
    obtain ⟨u, hu, hi⟩ := h
    simp only [false_iff, not_forall]
    exact ⟨u, hu, by simp [hi]⟩
  · simp only [List.any_eq_true, not_exists, not_and, Bool.not_eq_true] at h
    simp only [Option.map_eq_none_iff, List.find?_eq_none, Bool.not_eq_true]
    exact ⟨fun hp u hu => ⟨h u hu, hp u hu⟩, fun hp u hu => (hp u hu).2⟩

theorem checkUses_eq_some (s : State) (w : Word) (uses : List Use) (f : Fault) (h : checkUses s w uses = some f) :
    (∃ u ∈ uses, illegalOperand u.reg = true) ∧ f = .illegalInstruction s.pc w ∨
    (∀ u ∈ uses, illegalOperand u.reg = false) ∧
      ∃ u ∈ uses, u.protected s = true ∧ f = .protectionFault s.pc u.reg.toBits := by
  unfold checkUses at h
  split_ifs at h with hi
  · left
    simp only [List.any_eq_true] at hi
    exact ⟨hi, by simpa [eq_comm] using h⟩
  · right
    simp only [List.any_eq_true, not_exists, not_and, Bool.not_eq_true] at hi
    refine ⟨hi, ?_⟩
    obtain ⟨u, hu, rfl⟩ := Option.map_eq_some_iff.1 h
    exact ⟨u, List.mem_of_find?_eq_some hu, List.find?_some hu, rfl⟩

theorem readable_iff (s : State) (r : Reg) :
    readable s r = true ↔ illegalOperand r = false ∧ readProtected s r = false := by
  simp [readable]

theorem writable_iff (s : State) (r : Reg) :
    writable s r = true ↔ illegalOperand r = false ∧ writeProtected s r = false := by
  simp [writable]

/-- A register that may be written may be read. -/
theorem readable_of_writable {s : State} {r : Reg} (h : writable s r = true) : readable s r = true := by
  simp_all [writable, readable, writeProtected]

/-- Whether a use passes its check. -/
theorem use_ok_iff (s : State) (u : Use) :
    (illegalOperand u.reg = false ∧ u.protected s = false) ↔
      match u with
      | .read r => readable s r = true
      | .write r => writable s r = true := by
  cases u <;> simp [Use.reg, Use.protected, readable, writable]

/-- An instruction whose register checks pass does what follows them. -/
theorem execute_of_ok (i : Instr) (uses : List Use) (s : State) (r : Result)
    (h : ∀ u ∈ uses, match u with | .read q => readable s q = true | .write q => writable s q = true) :
    execute i uses s r = r := by
  have : checkUses s (encode i) uses = none :=
    (checkUses_eq_none _ _ _).2 fun u hu => (use_ok_iff s u).2 (h u hu)
  simp [execute, this]

/-- An instruction that answers a next state has passed its register checks. -/
theorem execute_eq_next (i : Instr) (uses : List Use) (s : State) (r : Result) (t : State) :
    execute i uses s r = .next t ↔
      (∀ u ∈ uses, match u with | .read q => readable s q = true | .write q => writable s q = true) ∧ r = .next t := by
  constructor
  · intro h
    unfold execute at h
    split at h
    · simp [raise] at h
    · rename_i hn
      exact ⟨fun u hu => (use_ok_iff s u).1 ((checkUses_eq_none _ _ _).1 hn u hu), h⟩
  · rintro ⟨h, rfl⟩
    exact execute_of_ok i uses s _ h

theorem execute_eq_refused (i : Instr) (uses : List Use) (s : State) (r : Result) (q : Refusal)
    (h : execute i uses s r = .refused q) : r = .refused q := by
  unfold execute at h
  split at h
  · simp [raise] at h
  · exact h

theorem execute_eq_fault (i : Instr) (uses : List Use) (s : State) (r : Result) (f : Fault)
    (h : execute i uses s r = .fault f) :
    checkUses s (encode i) uses = some f ∨ checkUses s (encode i) uses = none ∧ r = .fault f := by
  unfold execute at h
  split at h
  · rename_i g hg
    left
    simp only [raise, Host.Outcome.fault.injEq] at h
    exact h ▸ hg
  · rename_i hn
    exact .inr ⟨hn, h⟩

end Sys2Proof.Machine
end

