-- ==== Sys2Proof/Laws/Exec.lean ====
section
/-!
SUPPORT. What an instruction can do, said once: if `exec i s` answers `next t`, then `t` is one of the shapes of
`Effect`; and every instruction is its register checks and then what can fault by a memory access alone. Invariants and frames are derived from this lemma instead of from the meanings.
-/

namespace Sys2Proof.Machine

/-- The shapes of a completed instruction. -/
inductive Effect (s : State) : Instr → State → Prop
  /-- NOP. -/
  | nop : Effect s .nop s.advance
  /-- Arithmetic, logic, shifts, MOV, MOVS. -/
  | result (i : Instr) (dst : Reg) (v : Word) (hi : i.writesResultFlags = true) (hd : i.writes = some dst)
      (hw : writable s dst = true) : Effect s i (setResultFlags (regWrite s dst v) v).advance
  /-- Loads and immediate loads. -/
  | load (i : Instr) (dst : Reg) (v : Word) (hi : i.writesResultFlags = false) (hc : i.isCompare = false)
      (hd : i.writes = some dst) (hw : writable s dst = true) : Effect s i (regWrite s dst v).advance
  /-- Stores. -/
  | store (i : Instr) (addr v : Word) (sz : Size) (hi : i.isStore = true) (ha : Accessible s addr sz) :
      Effect s i (State.advance { s with mem := s.mem.store addr v sz.bytes })
  /-- Jumps, taken and untaken. -/
  | jump (i : Instr) (pc : Word) (hj : i.isJump = true) (hi : i.writes = none) (hf : i.isCompare = false)
      (hs : i.isStore = false) (hn : i.isInt = false) (ht : i ≠ .irt) : Effect s i { s with pc := pc }
  /-- CMP. -/
  | compare (a b : Reg) : Effect s (.cmp a b) (setCompareFlags s (regRead s a) (regRead s b)).advance
  /-- INT. -/
  | int (imm : BitVec 16) (handler : Word) (hv : s.ctx.valid = false)
      (hr : readHandler s (intCode imm) = .ok handler) : Effect s (.int imm) (trapEntry s handler)
  /-- IRT. -/
  | irt (hv : s.ctx.valid = true) : Effect s .irt (trapReturn s)
  /-- HLT. -/
  | hlt : Effect s .hlt { s.advance with halted := true }

theorem effect_of_result {s t : State} {i : Instr} {uses : List Use} {dst : Reg} {v : Word}
    (h : execute i uses s (finishResult dst v s) = .next t) (hu : Use.write dst ∈ uses)
    (hi : i.writesResultFlags = true) (hd : i.writes = some dst) : Effect s i t := by
  obtain ⟨hw, ht⟩ := (execute_eq_next ..).1 h
  simp only [finishResult, Host.Outcome.next.injEq] at ht
  exact ht ▸ .result i dst v hi hd (hw _ hu)

theorem effect_of_load {s t : State} {i : Instr} {base dst : Reg} {off : BitVec 16} {sz : Size} {ext : Word → Word}
    (h : loadWith i base dst off sz ext s = .next t) (hi : i.writesResultFlags = false) (hc : i.isCompare = false)
    (hd : i.writes = some dst) : Effect s i t := by
  obtain ⟨hw, ht⟩ := (execute_eq_next ..).1 h
  obtain ⟨v, -, hv⟩ := (attempt_eq_next ..).1 ht
  simp only [Host.Outcome.next.injEq] at hv
  exact hv ▸ .load i dst _ hi hc hd (hw (.write dst) (by simp))

theorem effect_of_store {s t : State} {i : Instr} {src base : Reg} {off : BitVec 16} {sz : Size}
    (h : storeWith i src base off sz s = .next t) (hi : i.isStore = true) : Effect s i t := by
  obtain ⟨-, ht⟩ := (execute_eq_next ..).1 h
  obtain ⟨u, hu, hv⟩ := (attempt_eq_next ..).1 ht
  obtain ⟨ha, rfl⟩ := (memWrite_eq_ok ..).1 hu
  simp only [Host.Outcome.next.injEq] at hv
  exact hv ▸ .store i _ _ sz hi ha

theorem effect_of_jump {s t : State} {i : Instr} {cond : Bool} {base : Reg} {off : BitVec 16}
    (h : jumpIf i cond base off s = .next t) (hj : i.isJump = true) (hi : i.writes = none) (hf : i.isCompare = false)
    (hs : i.isStore = false) (hn : i.isInt = false) (ht : i ≠ .irt) : Effect s i t := by
  obtain ⟨-, he⟩ := (execute_eq_next ..).1 h
  simp only [Host.Outcome.next.injEq] at he
  subst he
  split
  · exact .jump i _ hj hi hf hs hn ht
  · exact .jump i _ hj hi hf hs hn ht

/-- Everything a completed instruction can have done. -/
theorem exec_next_effect {i : Instr} {s t : State} (h : exec i s = .next t) : Effect s i t := by
  cases i with
  | nop => simp only [exec, execNop, Host.Outcome.next.injEq] at h; exact h ▸ .nop
  | mov src dst => exact effect_of_result h (by simp) rfl rfl
  | movs src dst => exact effect_of_result h (by simp) rfl rfl
  | ldb base dst off => exact effect_of_load h rfl rfl rfl
  | ldbs base dst off => exact effect_of_load h rfl rfl rfl
  | ldh base dst off => exact effect_of_load h rfl rfl rfl
  | ldhs base dst off => exact effect_of_load h rfl rfl rfl
  | ldw base dst off => exact effect_of_load h rfl rfl rfl
  | stb src base off => exact effect_of_store h rfl
  | sth src base off => exact effect_of_store h rfl
  | stw src base off => exact effect_of_store h rfl
  | lli dst value =>
    obtain ⟨hw, ht⟩ := (execute_eq_next ..).1 h
    simp only [Host.Outcome.next.injEq] at ht
    exact ht ▸ .load _ dst _ rfl rfl rfl (hw (.write dst) (by simp))
  | lui dst value =>
    obtain ⟨hw, ht⟩ := (execute_eq_next ..).1 h
    simp only [Host.Outcome.next.injEq] at ht
    exact ht ▸ .load _ dst _ rfl rfl rfl (hw (.write dst) (by simp))
  | jmp base off => exact effect_of_jump h rfl rfl rfl rfl rfl (by simp)
  | jeq base off => exact effect_of_jump h rfl rfl rfl rfl rfl (by simp)
  | jne base off => exact effect_of_jump h rfl rfl rfl rfl rfl (by simp)
  | jgt base off => exact effect_of_jump h rfl rfl rfl rfl rfl (by simp)
  | jge base off => exact effect_of_jump h rfl rfl rfl rfl rfl (by simp)
  | jlt base off => exact effect_of_jump h rfl rfl rfl rfl rfl (by simp)
  | jle base off => exact effect_of_jump h rfl rfl rfl rfl rfl (by simp)
  | cmp a b =>
    obtain ⟨-, ht⟩ := (execute_eq_next ..).1 h
    simp only [Host.Outcome.next.injEq] at ht
    exact ht ▸ .compare a b
  | inc reg => exact effect_of_result h (by simp) rfl rfl
  | dec reg => exact effect_of_result h (by simp) rfl rfl
  | shlLit reg count => exact effect_of_result h (by simp) rfl rfl
  | shlReg reg count => exact effect_of_result h (by simp) rfl rfl
  | shrLit reg count => exact effect_of_result h (by simp) rfl rfl
  | shrReg reg count => exact effect_of_result h (by simp) rfl rfl
  | add a b dst => exact effect_of_result h (by simp) rfl rfl
  | sub a b dst => exact effect_of_result h (by simp) rfl rfl
  | and a b dst => exact effect_of_result h (by simp) rfl rfl
  | or a b dst => exact effect_of_result h (by simp) rfl rfl
  | not src dst => exact effect_of_result h (by simp) rfl rfl
  | xor a b dst => exact effect_of_result h (by simp) rfl rfl
  | nand a b dst => exact effect_of_result h (by simp) rfl rfl
  | nor a b dst => exact effect_of_result h (by simp) rfl rfl
  | xnor a b dst => exact effect_of_result h (by simp) rfl rfl
  | int imm =>
    simp only [exec, execInt] at h
    split_ifs at h with hv
    obtain ⟨w, hw, ht⟩ := (attempt_eq_next ..).1 h
    simp only [Host.Outcome.next.injEq] at ht
    exact ht ▸ .int imm w (by simpa using hv) hw
  | irt =>
    simp only [exec, execIrt] at h
    split_ifs at h with hv
    simp only [Host.Outcome.next.injEq] at h
    exact h ▸ .irt hv
  | hlt => simp only [exec, execHlt, Host.Outcome.next.injEq] at h; exact h ▸ .hlt
  | iadd src dst lit => exact effect_of_result h (by simp) rfl rfl
  | isub src dst lit => exact effect_of_result h (by simp) rfl rfl
  | segment rest => simp [exec, execSegment, raise] at h
  | data rest => simp [exec, execData, raise] at h

/-! ## The register checks of every instruction -/

/-- The register uses of an instruction, in the order of their checks. -/
def useList (i : Instr) : List Use := i.reads.map .read ++ i.writes.toList.map .write

theorem mem_uses (i : Instr) (u : Use) :
    u ∈ useList i ↔ (∃ r ∈ i.reads, u = .read r) ∨ ∃ r, i.writes = some r ∧ u = .write r := by
  simp [useList, eq_comm]

theorem uses_iff (i : Instr) (r : Reg) : i.Uses r ↔ ∃ u ∈ useList i, u.reg = r := by
  simp only [Instr.Uses, mem_uses]
  constructor
  · rintro (h | h)
    · exact ⟨_, .inl ⟨r, h, rfl⟩, rfl⟩
    · exact ⟨_, .inr ⟨r, h, rfl⟩, rfl⟩
  · rintro ⟨u, ⟨q, h, rfl⟩ | ⟨q, h, rfl⟩, rfl⟩
    · exact .inl h
    · exact .inr h

theorem illegalOperand_iff (r : Reg) : illegalOperand r = true ↔ r.Illegal := by
  cases r <;> simp [illegalOperand, Reg.Illegal]

/-- An access raises one of two exceptions. -/
theorem accessFault_kind {s : State} {kind : AccessKind} {addr : Word} {sz : Size} {f : Fault}
    (h : accessFault s kind addr sz = some f) :
    f = .alignmentFault s.pc addr ∨ f = .memoryAccessViolation s.pc addr := by
  rcases (accessFault_eq_some _ _ _ _ _).1 h with ⟨_, rfl⟩ | ⟨_, _, rfl⟩
  · exact .inl rfl
  · exact .inr rfl

/-- After its register checks an instruction can fault by a memory access alone. -/
def OnlyAccessFaults (s : State) (r : Result) : Prop :=
  ∀ f, r = .fault f → ∃ a, f = .alignmentFault s.pc a ∨ f = .memoryAccessViolation s.pc a

theorem onlyAccessFaults_next (s t : State) : OnlyAccessFaults s (.next t) := by simp [OnlyAccessFaults]

theorem onlyAccessFaults_read (s u : State) (hp : u.pc = s.pc) (addr : Word) (sz : Size) (k : Word → Result)
    (hk : ∀ v f, k v ≠ .fault f) : OnlyAccessFaults s (attempt (memRead u addr sz) k) := by
  intro f h
  rcases (attempt_eq_fault _ _ _).1 h with h | ⟨_, _, h⟩
  · exact ⟨addr, hp ▸ accessFault_kind ((memRead_eq_error _ _ _ _).1 h)⟩
  · exact absurd h (hk _ _)

theorem onlyAccessFaults_write (s : State) (addr : Word) (sz : Size) (v : Word) (k : State → Result)
    (hk : ∀ t f, k t ≠ .fault f) : OnlyAccessFaults s (attempt (memWrite s addr sz v) k) := by
  intro f h
  rcases (attempt_eq_fault _ _ _).1 h with h | ⟨_, _, h⟩
  · exact ⟨addr, accessFault_kind ((memWrite_eq_error _ _ _ _ _).1 h)⟩
  · exact absurd h (hk _ _)

/-- Every hardware instruction is its register checks, in the order of its fields, and then something that can fault by a
memory access alone. -/
theorem exec_eq_execute (i : Instr) (s : State) (hm : i.isMeta = false) :
    ∃ r, exec i s = execute i (useList i) s r ∧ OnlyAccessFaults s r := by
  have noUses : ∀ (i : Instr) (r : Result), useList i = [] → execute i (useList i) s r = r := by
    intro i r h
    rw [h]
    rfl
  cases i
  case nop => exact ⟨_, (noUses _ _ rfl).symm, onlyAccessFaults_next _ _⟩
  case hlt => exact ⟨_, (noUses _ _ rfl).symm, onlyAccessFaults_next _ _⟩
  case irt =>
    refine ⟨_, (noUses .irt _ rfl).symm, ?_⟩
    simp only [exec, execIrt, OnlyAccessFaults]
    split <;> simp
  case int imm =>
    refine ⟨_, (noUses (.int imm) _ rfl).symm, ?_⟩
    simp only [exec, execInt]
    split
    · simp [OnlyAccessFaults]
    · exact onlyAccessFaults_read s { s with mode := .kernel } rfl _ _ _ (by simp)
  case segment => simp [Instr.isMeta] at hm
  case data => simp [Instr.isMeta] at hm
  case stb => exact ⟨_, rfl, onlyAccessFaults_write _ _ _ _ _ (by simp)⟩
  case sth => exact ⟨_, rfl, onlyAccessFaults_write _ _ _ _ _ (by simp)⟩
  case stw => exact ⟨_, rfl, onlyAccessFaults_write _ _ _ _ _ (by simp)⟩
  case ldb => exact ⟨_, rfl, onlyAccessFaults_read s s rfl _ _ _ (by simp)⟩
  case ldbs => exact ⟨_, rfl, onlyAccessFaults_read s s rfl _ _ _ (by simp)⟩
  case ldh => exact ⟨_, rfl, onlyAccessFaults_read s s rfl _ _ _ (by simp)⟩
  case ldhs => exact ⟨_, rfl, onlyAccessFaults_read s s rfl _ _ _ (by simp)⟩
  case ldw => exact ⟨_, rfl, onlyAccessFaults_read s s rfl _ _ _ (by simp)⟩
  all_goals exact ⟨_, rfl, onlyAccessFaults_next _ _⟩

/-- Everything a step that answers a next state has done. -/
theorem step_next {s t : State} (h : step s = .next t) :
    s.halted = false ∧ ∃ w i, fetch s = .ok w ∧ decodeWord w = .ok i ∧ exec i s = .next t := by
  unfold step at h
  split at h
  · simp at h
  · rename_i hs
    refine ⟨by simpa [stopped] using hs, ?_⟩
    split at h
    · simp at h
    · rename_i w hw
      split at h
      · simp at h
      · rename_i i hi
        exact ⟨w, i, hw, hi, h⟩

end Sys2Proof.Machine
end

