-- ==== Sys2Proof/Laws/PerInstr.lean ====
section
/-!
SUPPORT. Facts about an instruction as syntax, one lemma per constructor.
-/

namespace Sys2Proof.Laws

/-- The opcode of the table's row (spec/30_encoding.md R95). -/
def opcodeOf : Instr → BitVec 6
  | .nop => 0x00#6
  | .mov _ _ => 0x01#6
  | .movs _ _ => 0x02#6
  | .ldb _ _ _ => 0x03#6
  | .ldbs _ _ _ => 0x04#6
  | .ldh _ _ _ => 0x05#6
  | .ldhs _ _ _ => 0x06#6
  | .ldw _ _ _ => 0x07#6
  | .stb _ _ _ => 0x08#6
  | .sth _ _ _ => 0x09#6
  | .stw _ _ _ => 0x0A#6
  | .lli _ _ => 0x0B#6
  | .lui _ _ => 0x0C#6
  | .jmp _ _ => 0x0D#6
  | .jeq _ _ => 0x0E#6
  | .jne _ _ => 0x0F#6
  | .jgt _ _ => 0x10#6
  | .jge _ _ => 0x11#6
  | .jlt _ _ => 0x12#6
  | .jle _ _ => 0x13#6
  | .cmp _ _ => 0x14#6
  | .inc _ => 0x15#6
  | .dec _ => 0x16#6
  | .shlLit _ _ => 0x17#6
  | .shlReg _ _ => 0x17#6
  | .shrLit _ _ => 0x18#6
  | .shrReg _ _ => 0x18#6
  | .add _ _ _ => 0x19#6
  | .sub _ _ _ => 0x1A#6
  | .and _ _ _ => 0x1B#6
  | .or _ _ _ => 0x1C#6
  | .not _ _ => 0x1D#6
  | .xor _ _ _ => 0x1E#6
  | .nand _ _ _ => 0x1F#6
  | .nor _ _ _ => 0x20#6
  | .xnor _ _ _ => 0x21#6
  | .int _ => 0x22#6
  | .irt => 0x23#6
  | .hlt => 0x24#6
  | .iadd _ _ _ => 0x25#6
  | .isub _ _ _ => 0x26#6
  | .segment _ => 0x27#6
  | .data _ => 0x3E#6

/-- The opcode field of the word of an instruction is its row's opcode. -/
def EncodeOpcode.Statement (i : Instr) : Prop := opField (encode i) = opcodeOf i

theorem EncodeOpcode.nop : EncodeOpcode.Statement (.nop) :=
  opField_encR ..

theorem EncodeOpcode.mov (src dst : Reg) : EncodeOpcode.Statement (.mov src dst) :=
  opField_encR ..

theorem EncodeOpcode.movs (src dst : Reg) : EncodeOpcode.Statement (.movs src dst) :=
  opField_encR ..

theorem EncodeOpcode.ldb (base dst : Reg) (off : BitVec 16) : EncodeOpcode.Statement (.ldb base dst off) :=
  opField_encI ..

theorem EncodeOpcode.ldbs (base dst : Reg) (off : BitVec 16) : EncodeOpcode.Statement (.ldbs base dst off) :=
  opField_encI ..

theorem EncodeOpcode.ldh (base dst : Reg) (off : BitVec 16) : EncodeOpcode.Statement (.ldh base dst off) :=
  opField_encI ..

theorem EncodeOpcode.ldhs (base dst : Reg) (off : BitVec 16) : EncodeOpcode.Statement (.ldhs base dst off) :=
  opField_encI ..

theorem EncodeOpcode.ldw (base dst : Reg) (off : BitVec 16) : EncodeOpcode.Statement (.ldw base dst off) :=
  opField_encI ..

theorem EncodeOpcode.stb (src base : Reg) (off : BitVec 16) : EncodeOpcode.Statement (.stb src base off) :=
  opField_encI ..

theorem EncodeOpcode.sth (src base : Reg) (off : BitVec 16) : EncodeOpcode.Statement (.sth src base off) :=
  opField_encI ..

theorem EncodeOpcode.stw (src base : Reg) (off : BitVec 16) : EncodeOpcode.Statement (.stw src base off) :=
  opField_encI ..

theorem EncodeOpcode.lli (dst : Reg) (value : BitVec 16) : EncodeOpcode.Statement (.lli dst value) :=
  opField_encI ..

theorem EncodeOpcode.lui (dst : Reg) (value : BitVec 16) : EncodeOpcode.Statement (.lui dst value) :=
  opField_encI ..

theorem EncodeOpcode.jmp (base : Reg) (off : BitVec 16) : EncodeOpcode.Statement (.jmp base off) :=
  opField_encI ..

theorem EncodeOpcode.jeq (base : Reg) (off : BitVec 16) : EncodeOpcode.Statement (.jeq base off) :=
  opField_encI ..

theorem EncodeOpcode.jne (base : Reg) (off : BitVec 16) : EncodeOpcode.Statement (.jne base off) :=
  opField_encI ..

theorem EncodeOpcode.jgt (base : Reg) (off : BitVec 16) : EncodeOpcode.Statement (.jgt base off) :=
  opField_encI ..

theorem EncodeOpcode.jge (base : Reg) (off : BitVec 16) : EncodeOpcode.Statement (.jge base off) :=
  opField_encI ..

theorem EncodeOpcode.jlt (base : Reg) (off : BitVec 16) : EncodeOpcode.Statement (.jlt base off) :=
  opField_encI ..

theorem EncodeOpcode.jle (base : Reg) (off : BitVec 16) : EncodeOpcode.Statement (.jle base off) :=
  opField_encI ..

theorem EncodeOpcode.cmp (a b : Reg) : EncodeOpcode.Statement (.cmp a b) :=
  opField_encR ..

theorem EncodeOpcode.inc (reg : Reg) : EncodeOpcode.Statement (.inc reg) :=
  opField_encR ..

theorem EncodeOpcode.dec (reg : Reg) : EncodeOpcode.Statement (.dec reg) :=
  opField_encR ..

theorem EncodeOpcode.shlLit (reg : Reg) (count : BitVec 5) : EncodeOpcode.Statement (.shlLit reg count) :=
  opField_encR ..

theorem EncodeOpcode.shlReg (reg count : Reg) : EncodeOpcode.Statement (.shlReg reg count) :=
  opField_encR ..

theorem EncodeOpcode.shrLit (reg : Reg) (count : BitVec 5) : EncodeOpcode.Statement (.shrLit reg count) :=
  opField_encR ..

theorem EncodeOpcode.shrReg (reg count : Reg) : EncodeOpcode.Statement (.shrReg reg count) :=
  opField_encR ..

theorem EncodeOpcode.add (a b dst : Reg) : EncodeOpcode.Statement (.add a b dst) :=
  opField_encR ..

theorem EncodeOpcode.sub (a b dst : Reg) : EncodeOpcode.Statement (.sub a b dst) :=
  opField_encR ..

theorem EncodeOpcode.and (a b dst : Reg) : EncodeOpcode.Statement (.and a b dst) :=
  opField_encR ..

theorem EncodeOpcode.or (a b dst : Reg) : EncodeOpcode.Statement (.or a b dst) :=
  opField_encR ..

theorem EncodeOpcode.not (src dst : Reg) : EncodeOpcode.Statement (.not src dst) :=
  opField_encR ..

theorem EncodeOpcode.xor (a b dst : Reg) : EncodeOpcode.Statement (.xor a b dst) :=
  opField_encR ..

theorem EncodeOpcode.nand (a b dst : Reg) : EncodeOpcode.Statement (.nand a b dst) :=
  opField_encR ..

theorem EncodeOpcode.nor (a b dst : Reg) : EncodeOpcode.Statement (.nor a b dst) :=
  opField_encR ..

theorem EncodeOpcode.xnor (a b dst : Reg) : EncodeOpcode.Statement (.xnor a b dst) :=
  opField_encR ..

theorem EncodeOpcode.int (imm : BitVec 16) : EncodeOpcode.Statement (.int imm) :=
  opField_encI ..

theorem EncodeOpcode.irt : EncodeOpcode.Statement (.irt) :=
  opField_encR ..

theorem EncodeOpcode.hlt : EncodeOpcode.Statement (.hlt) :=
  opField_encR ..

theorem EncodeOpcode.iadd (src dst : Reg) (lit : BitVec 16) : EncodeOpcode.Statement (.iadd src dst lit) :=
  opField_encI ..

theorem EncodeOpcode.isub (src dst : Reg) (lit : BitVec 16) : EncodeOpcode.Statement (.isub src dst lit) :=
  opField_encI ..

theorem EncodeOpcode.segment (rest : BitVec 26) : EncodeOpcode.Statement (.segment rest) :=
  opField_encMeta ..

theorem EncodeOpcode.data (rest : BitVec 26) : EncodeOpcode.Statement (.data rest) :=
  opField_encMeta ..

end Sys2Proof.Laws
end

