-- ==== Sys2Proof/Tests/Slice0.lean ====
section
/-!
SUPPORT. Tests of the model, and for every statement with hypotheses a state and operands that meet them. The words and
the expected values are those of the spec's own rules and vectors (spec/95_test_vectors.md, whose ids T<n> are cited).
-/

namespace Sys2Proof.Tests

open Machine

/-! ## Helpers -/

/-- The launch of the spec's vectors: Kernel mode, `pc` 0x1000, addresses 0 to 0xFFFF mapped, registers 0. -/
def start : State := State.launch { Launch.default with mapped := [{ base := 0, size := 0x10000 }] }

/-- A state in User mode. -/
def user (s : State) : State := { s with mode := .user }

/-- A state with a word stored at an address. -/
def withWord (s : State) (addr v : Word) : State := { s with mem := s.mem.store addr v 4 }

/-- A state with the flags of a status word. -/
def withSts (s : State) (v : Word) : State :=
  { s with flags := ⟨v.getLsbD 0, v.getLsbD 1, v.getLsbD 2, v.getLsbD 3, v.getLsbD 4, v.getLsbD 5⟩ }

/-- A state with a saved context. -/
def withCtx (s : State) (bpr : Word) (mode : Mode) : State :=
  { s with ctx := { valid := true, bpr := bpr, mode := mode } }

/-- One step of an instruction word placed at `pc`. -/
def run (s : State) (w : Nat) : Result := step (s.withFetchWord 32 w)

/-- A part of the next state, if there is one. -/
def see {α : Type} (f : State → α) : Result → Option α
  | .next t => some (f t)
  | .fault _ => none
  | .refused _ => none

/-- The fault, if there is one. -/
def faultOf : Result → Option Fault
  | .next _ => none
  | .fault f => some f
  | .refused _ => none

/-- The refusal, if there is one. -/
def refusalOf : Result → Option Refusal
  | .next _ => none
  | .fault _ => none
  | .refused r => some r

/-- A register and the Zero flag. -/
def regZ (i : Fin 22) (t : State) : Word × Bool := (t.getX i, t.flags.z)

/-- A register and the status word. -/
def regSts (i : Fin 22) (t : State) : Word × Word := (t.getX i, t.sts)

/-- The four bytes from an address on, lowest first, and the `pc`. -/
def bytesAt (a : Nat) (t : State) : List Byte := [t.mem.get a, t.mem.get (a + 1), t.mem.get (a + 2), t.mem.get (a + 3)]

/-! ## Well-formedness -/

theorem test_wf_refuses_shlReg_noreg : (Instr.shlReg (.rg 1) .noreg).wf = false := by decide

theorem test_wf_refuses_shrReg_noreg : (Instr.shrReg (.rg 1) .noreg).wf = false := by decide

theorem test_wf_accepts_shift_by_zero_register : (Instr.shlReg (.rg 1) .zero).wf = true := by decide

/-! ## Decoding: one word of the spec for every constructor -/

theorem test_decode_nop : decodeWord 0x02F7B800 = .ok .nop := by decide

theorem test_decode_mov : decodeWord 0x04371000 = .ok (.mov (.rg 1) (.rg 2)) := by decide

theorem test_decode_movs : decodeWord 0x08371000 = .ok (.movs (.rg 1) (.rg 2)) := by decide

theorem test_decode_ldb : decodeWord 0x0C850003 = .ok (.ldb (.rg 4) (.rg 5) 3) := by decide

theorem test_decode_ldbs : decodeWord 0x10850002 = .ok (.ldbs (.rg 4) (.rg 5) 2) := by decide

theorem test_decode_ldh : decodeWord 0x14858000 = .ok (.ldh (.rg 4) (.rg 5) 0x8000) := by decide

theorem test_decode_ldhs : decodeWord 0x1885FFFE = .ok (.ldhs (.rg 4) (.rg 5) 0xFFFE) := by decide

theorem test_decode_ldw : decodeWord 0x1F85FFFC = .ok (.ldw .pcx (.rg 5) 0xFFFC) := by decide

theorem test_decode_stb : decodeWord 0x20640001 = .ok (.stb (.rg 3) (.rg 4) 1) := by decide

theorem test_decode_sth : decodeWord 0x2464FFFE = .ok (.sth (.rg 3) (.rg 4) 0xFFFE) := by decide

theorem test_decode_stw : decodeWord 0x2811FFFC = .ok (.stw (.rg 0) .spr 0xFFFC) := by decide

theorem test_decode_lli : decodeWord 0x2ED71234 = .ok (.lli .zero 0x1234) := by decide

theorem test_decode_lui : decodeWord 0x32970001 = .ok (.lui .idr 1) := by decide

theorem test_decode_jmp : decodeWord 0x36770004 = .ok (.jmp .ret 4) := by decide

theorem test_decode_jeq : decodeWord 0x3A970020 = .ok (.jeq .idr 0x20) := by decide

theorem test_decode_jne : decodeWord 0x3ED70020 = .ok (.jne .zero 0x20) := by decide

theorem test_decode_jgt : decodeWord 0x42D70020 = .ok (.jgt .zero 0x20) := by decide

theorem test_decode_jge : decodeWord 0x46D70020 = .ok (.jge .zero 0x20) := by decide

theorem test_decode_jlt : decodeWord 0x4AD70020 = .ok (.jlt .zero 0x20) := by decide

theorem test_decode_jle : decodeWord 0x4ED70020 = .ok (.jle .zero 0x20) := by decide

theorem test_decode_cmp : decodeWord 0x5022B800 = .ok (.cmp (.rg 1) (.rg 2)) := by decide

theorem test_decode_inc : decodeWord 0x54B7B800 = .ok (.inc (.rg 5)) := by decide

theorem test_decode_dec : decodeWord 0x58B7B800 = .ok (.dec (.rg 5)) := by decide

theorem test_decode_shlLit : decodeWord 0x5C370900 = .ok (.shlLit (.rg 1) 4) := by decide

theorem test_decode_shlReg : decodeWord 0x5C220800 = .ok (.shlReg (.rg 1) (.rg 2)) := by decide

theorem test_decode_shrLit : decodeWord 0x60370FC0 = .ok (.shrLit (.rg 1) 31) := by decide

theorem test_decode_shrReg : decodeWord 0x60220800 = .ok (.shrReg (.rg 1) (.rg 2)) := by decide

theorem test_decode_add : decodeWord 0x64221800 = .ok (.add (.rg 1) (.rg 2) (.rg 3)) := by decide

theorem test_decode_sub : decodeWord 0x68211800 = .ok (.sub (.rg 1) (.rg 1) (.rg 3)) := by decide

theorem test_decode_and : decodeWord 0x6C221800 = .ok (.and (.rg 1) (.rg 2) (.rg 3)) := by decide

theorem test_decode_or : decodeWord 0x7036A800 = .ok (.or (.rg 1) .zero .mmr) := by decide

theorem test_decode_not : decodeWord 0x74371800 = .ok (.not (.rg 1) (.rg 3)) := by decide

theorem test_decode_xor : decodeWord 0x78221800 = .ok (.xor (.rg 1) (.rg 2) (.rg 3)) := by decide

theorem test_decode_nand : decodeWord 0x7C221800 = .ok (.nand (.rg 1) (.rg 2) (.rg 3)) := by decide

theorem test_decode_nor : decodeWord 0x82D61800 = .ok (.nor .zero .zero (.rg 3)) := by decide

theorem test_decode_xnor : decodeWord 0x84211800 = .ok (.xnor (.rg 1) (.rg 1) (.rg 3)) := by decide

theorem test_decode_int : decodeWord 0x8AF70180 = .ok (.int 0x0180) := by decide

theorem test_decode_irt : decodeWord 0x8EF7B800 = .ok .irt := by decide

theorem test_decode_hlt : decodeWord 0x92F7B800 = .ok .hlt := by decide

theorem test_decode_iadd : decodeWord 0x95F07FFF = .ok (.iadd (.rg 0xF) .acc 0x7FFF) := by decide

theorem test_decode_isub : decodeWord 0x9A310004 = .ok (.isub .spr .spr 4) := by decide

theorem test_decode_segment : decodeWord 0x9C000000 = .ok (.segment 0) := by decide

theorem test_decode_data : decodeWord 0xF8000000 = .ok (.data 0) := by decide

theorem test_decode_rejects_all_zero : decodeWord 0x00000000 = .error .fixedField := by decide

theorem test_decode_rejects_opcode_28 : decodeWord 0xA0000000 = .error .invalidOpcode := by decide

theorem test_decode_rejects_opcode_3F : decodeWord 0xFFFFFFFF = .error .invalidOpcode := by decide

theorem test_decode_rejects_nop_shiftAmt : decodeWord 0x02F7B840 = .error .fixedField := by decide

theorem test_decode_rejects_register_shift_count : decodeWord 0x5C220900 = .error .fixedField := by decide

theorem test_decode_rejects_three_bytes : decode [0x00, 0xB8, 0xF7] = .error .tooShort := by decide

theorem test_table_word_little_endian : decodeTableWord 32 0x04371000 = some (.mov (.rg 1) (.rg 2)) := by decide

/-! ## One step -/

theorem test_nop :
    see (fun t => (t.pc, t.sts)) (run start 0x02F7B800) = some (0x1004, 0) := by decide

theorem test_mov :
    see (regZ 2) (run (start.setX 1 0x2A) 0x04371000) = some (0x2A, false) := by decide

theorem test_mov_pcx_to_ret :
    see (State.getX · 0x13) (run { start with pc := 0x1008 } 0x07979800) = some 0x100C := by decide

theorem test_movs_protected :
    faultOf (run start 0x0837E000) = some (.protectionFault 0x1000 0x1C) := by decide

theorem test_ldb :
    see (regSts 5) (run (withSts (withWord (start.setX 4 0x2000) 0x2000 0x123480F1) 0x35) 0x0C850000) = some (0xF1, 0x35) := by
  decide

theorem test_ldb_wraps :
    see (State.getX · 5) (run (withWord (start.setX 4 0xFFFFFFFF) 0 0xAB) 0x0C850001) = some 0xAB := by decide

theorem test_ldbs :
    see (State.getX · 5) (run (withWord (start.setX 4 0x2000) 0x2000 0x123480F1) 0x10850000) = some 0xFFFFFFF1 := by
  decide

theorem test_ldbs_positive :
    see (State.getX · 5) (run (withWord (start.setX 4 0x2000) 0x2000 0x123480F1) 0x10850002) = some 0x34 := by decide

theorem test_ldh :
    see (State.getX · 5) (run (withWord (start.setX 4 0x2000) 0x2000 0x123480F1) 0x14850000) = some 0x80F1 := by decide

theorem test_ldh_odd :
    faultOf (run (withWord (start.setX 4 0x2000) 0x2000 0x123480F1) 0x14850001) = some (.alignmentFault 0x1000 0x2001) := by
  decide

theorem test_ldhs :
    see (State.getX · 5) (run (withWord (start.setX 4 0x2000) 0x2000 0x123480F1) 0x18850000) = some 0xFFFF80F1 := by
  decide

theorem test_ldhs_negative_offset :
    see (State.getX · 5) (run (withWord (start.setX 4 0x2004) 0x2000 0x123480F1) 0x1885FFFE) = some 0x1234 := by decide

theorem test_ldw :
    see (State.getX · 5) (run (withWord (start.setX 4 0x2000) 0x2000 0x123480F1) 0x1C850000) = some 0x123480F1 := by
  decide

theorem test_ldw_zero_destination_still_faults :
    faultOf (run (start.setX 4 0x2000) 0x1C960002) = some (.alignmentFault 0x1000 0x2002) := by decide

theorem test_stb :
    see (bytesAt 0x2000) (run ((withWord start 0x2000 0x123480F1).setX 3 0xFFFFFF00 |>.setX 4 0x2001) 0x20640000) =
      some [0xF1, 0x00, 0x34, 0x12] := by decide

theorem test_sth :
    see (bytesAt 0x2000) (run ((start.setX 3 0x12345678).setX 4 0x2004) 0x2464FFFE) = some [0, 0, 0x78, 0x56] := by
  decide

theorem test_stw :
    see (bytesAt 0x7FFC) (run ((start.setX 0 0xDEADBEEF).setX 0x11 0x8000) 0x2811FFFC) =
      some [0xEF, 0xBE, 0xAD, 0xDE] := by decide

theorem test_stw_unmapped :
    faultOf (run (start.setX 4 0x10000) 0x28640000) = some (.memoryAccessViolation 0x1000 0x10000) := by decide

theorem test_lli :
    see (regSts 0) (run (withSts (start.setX 0 0xFFFFFFFF) 0x35) 0x2C171234) = some (0x1234, 0x35) := by decide

theorem test_lli_no_sign :
    see (State.getX · 0) (run start 0x2C17FFFF) = some 0xFFFF := by decide

theorem test_lui :
    see (State.getX · 0) (run (start.setX 0 0x1234) 0x3017ABCD) = some 0xABCD1234 := by decide

theorem test_lui_idr_in_user_mode :
    faultOf (run (user start) 0x32970001) = some (.protectionFault 0x1000 0x14) := by decide

theorem test_jmp_return :
    see State.pc (run (start.setX 0x13 0x1230) 0x36770004) = some 0x1234 := by decide

theorem test_jmp_pc_relative :
    see State.pc (run { start with pc := 0x1020 } 0x3797FFF8) = some 0x101C := by decide

theorem test_jeq_after_cmp :
    [see State.pc (run (withSts start 0x35) 0x3AD70020),
      see State.pc (run (withSts start 0x06) 0x3AD70020),
      see State.pc (run (withSts start 0x18) 0x3AD70020)] =
      [some 0x20, some 0x1004, some 0x1004] := by decide

theorem test_jne_after_cmp :
    [see State.pc (run (withSts start 0x35) 0x3ED70020),
      see State.pc (run (withSts start 0x06) 0x3ED70020),
      see State.pc (run (withSts start 0x18) 0x3ED70020)] =
      [some 0x1004, some 0x20, some 0x20] := by decide

theorem test_jgt_after_cmp :
    [see State.pc (run (withSts start 0x35) 0x42D70020),
      see State.pc (run (withSts start 0x06) 0x42D70020),
      see State.pc (run (withSts start 0x18) 0x42D70020)] =
      [some 0x1004, some 0x20, some 0x1004] := by decide

theorem test_jge_after_cmp :
    [see State.pc (run (withSts start 0x35) 0x46D70020),
      see State.pc (run (withSts start 0x06) 0x46D70020),
      see State.pc (run (withSts start 0x18) 0x46D70020)] =
      [some 0x20, some 0x20, some 0x1004] := by decide

theorem test_jlt_after_cmp :
    [see State.pc (run (withSts start 0x35) 0x4AD70020),
      see State.pc (run (withSts start 0x06) 0x4AD70020),
      see State.pc (run (withSts start 0x18) 0x4AD70020)] =
      [some 0x1004, some 0x1004, some 0x20] := by decide

theorem test_jle_after_cmp :
    [see State.pc (run (withSts start 0x35) 0x4ED70020),
      see State.pc (run (withSts start 0x06) 0x4ED70020),
      see State.pc (run (withSts start 0x18) 0x4ED70020)] =
      [some 0x20, some 0x1004, some 0x20] := by decide

theorem test_jge_ignores_ge_bit :
    see State.pc (run (withSts start 0x04) 0x46D70020) = some 0x1004 := by decide

theorem test_jle_ignores_le_bit :
    see State.pc (run (withSts start 0x10) 0x4ED70020) = some 0x1004 := by decide

theorem test_jeq_untaken_checks_base :
    faultOf (run start 0x3AF70020) = some (.illegalInstruction 0x1000 0x3AF70020) := by decide

theorem test_cmp_most_negative_is_less :
    see State.sts (run (withSts ((start.setX 1 0x80000000).setX 2 1) 0x3F) 0x5022B800) = some 0x18 := by decide

theorem test_cmp_equal :
    see State.sts (run (withSts ((start.setX 1 5).setX 2 5) 0x3F) 0x5022B800) = some 0x35 := by decide

theorem test_inc_wraps :
    see (regZ 5) (run (start.setX 5 0xFFFFFFFF) 0x54B7B800) = some (0, true) := by decide

theorem test_inc_pcx_protected :
    faultOf (run start 0x5797B800) = some (.protectionFault 0x1000 0x1C) := by decide

theorem test_dec_wraps :
    see (regZ 5) (run start 0x58B7B800) = some (0xFFFFFFFF, false) := by decide

theorem test_dec_to_zero :
    see (regZ 5) (run (start.setX 5 1) 0x58B7B800) = some (0, true) := by decide

theorem test_add_carries_out :
    see (regZ 3) (run ((start.setX 1 0xFFFFFFFF).setX 2 1) 0x64221800) = some (0, true) := by decide

theorem test_add_same_register :
    see (State.getX · 1) (run (start.setX 1 0x40000001) 0x64210800) = some 0x80000002 := by decide

theorem test_sub_borrows :
    see (regZ 3) (run (start.setX 2 1) 0x68221800) = some (0xFFFFFFFF, false) := by decide

theorem test_sub_order :
    see (State.getX · 3) (run ((start.setX 1 0x80000000).setX 2 1) 0x68221800) = some 0x7FFFFFFF := by decide

theorem test_iadd_zero :
    see (regZ 0x10) (run (start.setX 0xF 0xFFFF8001) 0x95F07FFF) = some (0, true) := by decide

theorem test_iadd_negative :
    see (State.getX · 2) (run start 0x9422FFFF) = some 0xFFFFFFFF := by decide

theorem test_isub :
    see (State.getX · 0x11) (run (start.setX 0x11 0x8000) 0x9A310004) = some 0x7FFC := by decide

theorem test_isub_negative :
    see (State.getX · 2) (run start 0x98228000) = some 0x8000 := by decide

theorem test_and :
    see (regZ 3) (run ((start.setX 1 0xF0F0A5A5).setX 2 0x0FF0FFFF) 0x6C221800) = some (0x00F0A5A5, false) := by decide

theorem test_or :
    see (regZ 3) (run ((start.setX 1 0xF0F0A5A5).setX 2 0x0FF0FFFF) 0x70221800) = some (0xFFF0FFFF, false) := by decide

theorem test_xor :
    see (regZ 3) (run ((start.setX 1 0xF0F0A5A5).setX 2 0x0FF0FFFF) 0x78221800) = some (0xFF005A5A, false) := by decide

theorem test_nand :
    see (regZ 3) (run ((start.setX 1 0xF0F0A5A5).setX 2 0x0FF0FFFF) 0x7C221800) = some (0xFF0F5A5A, false) := by decide

theorem test_nor :
    see (regZ 3) (run ((start.setX 1 0xF0F0A5A5).setX 2 0x0FF0FFFF) 0x80221800) = some (0x000F0000, false) := by decide

theorem test_xnor :
    see (regZ 3) (run ((start.setX 1 0xF0F0A5A5).setX 2 0x0FF0FFFF) 0x84221800) = some (0x00FFA5A5, false) := by decide

theorem test_not :
    see (regZ 3) (run (start.setX 1 0xF0F0A5A5) 0x74371800) = some (0x0F0F5A5A, false) := by decide

theorem test_not_zero :
    see (regZ 3) (run (start.setX 1 0xFFFFFFFF) 0x74371800) = some (0, true) := by decide

theorem test_or_mmr_in_user_mode :
    faultOf (run (user start) 0x7036A800) = some (.protectionFault 0x1000 0x15) := by decide

theorem test_shl_literal :
    see (State.getX · 1) (run (start.setX 1 0x12345678) 0x5C370900) = some 0x23456780 := by decide

theorem test_shl_loses_top_bit :
    see (regZ 1) (run (start.setX 1 0x80000000) 0x5C370840) = some (0, true) := by decide

theorem test_shl_register_count_36 :
    see (State.getX · 1) (run ((start.setX 1 1).setX 2 0x24) 0x5C220800) = some 0x10 := by decide

theorem test_shl_by_itself :
    see (State.getX · 1) (run (start.setX 1 3) 0x5C210800) = some 0x18 := by decide

theorem test_shr_literal_is_logical :
    see (State.getX · 1) (run (start.setX 1 0x80000000) 0x60370FC0) = some 1 := by decide

theorem test_shr_to_zero :
    see (regZ 1) (run (start.setX 1 1) 0x60370840) = some (0, true) := by decide

theorem test_shr_register :
    see (State.getX · 1) (run ((start.setX 1 0x12345678).setX 2 8) 0x60220800) = some 0x00123456 := by decide

theorem test_shr_internal_count :
    faultOf (run (start.setX 1 1) 0x603A0800) = some (.illegalInstruction 0x1000 0x603A0800) := by decide

/-- The state before vector T11.1: User mode, a table at 0x2000 whose entry 0x80 holds 0x3000. -/
def beforeInt : State :=
  user (withWord { (start.setX 0x14 0x2000).setX 0x12 0x7F00 with pc := 0x1020 } 0x2200 0x3000)

theorem test_int :
    see (fun t => (t.pc, t.getX 0x13, t.mode, t.ctx)) (run beforeInt 0x8AF70080) =
      some (0x3000, 0x1024, .kernel, { valid := true, bpr := 0x7F00, mode := .user }) := by decide

theorem test_int_nested :
    refusalOf (run (withCtx beforeInt 0 .user) 0x8AF70080) = some .intWhileContextSaved := by decide

theorem test_irt :
    see (fun t => (t.pc, t.getX 0x12, t.mode, t.ctx.valid)) (run (withCtx (start.setX 0x13 0x1024) 0x7F00 .user) 0x8EF7B800) =
      some (0x1024, 0x7F00, .user, false) := by decide

theorem test_irt_without_context :
    refusalOf (run (start.setX 0x13 0x1024) 0x8EF7B800) = some .irtWithoutContext := by decide

theorem test_hlt :
    see (fun t => (t.pc, t.halted)) (run (user start) 0x92F7B800) = some (0x1004, true) := by decide

theorem test_halted_has_no_step :
    faultOf (run { start with halted := true } 0x02F7B800) = some .halted := by decide

theorem test_segment :
    faultOf (run start 0x9C000000) = some (.illegalInstruction 0x1000 0x9C000000) := by decide

theorem test_data :
    faultOf (run start 0xF8000000) = some (.illegalInstruction 0x1000 0xF8000000) := by decide

theorem test_fetch_misaligned :
    faultOf (step { start with pc := 0x1002 }) = some (.alignmentFault 0x1002 0x1002) := by decide

theorem test_fetch_unmapped :
    faultOf (step { start with pc := 0x20000 }) = some (.memoryAccessViolation 0x20000 0x20000) := by decide

theorem test_illegal_before_protection :
    faultOf (run (user start) 0x06F7A000) = some (.illegalInstruction 0x1000 0x06F7A000) := by decide

theorem test_withFetchWord_runs_after_reset :
    see (State.getX · 0) (step (State.reset.withFetchWord 32 0x2C171234)) = some 0x1234 := by decide

/-! ## A state and operands that meet the hypotheses of each statement -/

/-- The reset state with a word at `pc`. -/
def resetWith (w : Nat) : State := State.reset.withFetchWord 32 w

/-- A state in which only the bytes 0 to 3 are mapped. -/
def low : State := { start with mapped := [{ base := 0, size := 4 }] }

theorem witness_DecodeOfEncode :
    (Instr.shrReg .pcx (.reserved 2)).wf = true ∧ (Instr.data (BitVec.allOnes 26)).wf = true := by
  decide

theorem witness_EncodeOfDecode :
    decodeWord 0x9BDFFFFF = .ok (.isub (.reserved 1) (.reserved 2) 0xFFFF) ∧
      decodeWord 0xFBFFFFFF = .ok (.data (BitVec.allOnes 26)) := by
  decide

theorem witness_DecoderSelectsExactly_selects : (opField 0x9BDFFFFF).toNat = 0x26 ∧ FixedFieldCheck 0x9BDFFFFF :=
  ⟨by decide, by decide⟩

theorem witness_DecoderSelectsExactly_rejects : (opField 0x02F7B801).toNat = 0 ∧ ¬ FixedFieldCheck 0x02F7B801 :=
  ⟨by decide, by decide⟩

theorem witness_IllegalWordFaults_opcode_27 :
    (resetWith 0x9C000000).halted = false ∧ (fetch (resetWith 0x9C000000)).toOption = some 0x9C000000 ∧
      0x27 ≤ (opField 0x9C000000).toNat := by
  decide

theorem witness_IllegalWordFaults_fixed_field :
    (resetWith 0x02F7B840).halted = false ∧ (fetch (resetWith 0x02F7B840)).toOption = some 0x02F7B840 ∧
      ¬ FixedFieldCheck 0x02F7B840 := by
  decide

theorem witness_StepRunsDecodedInstruction :
    (resetWith 0x04371000).halted = false ∧ Accessible (resetWith 0x04371000) (resetWith 0x04371000).pc .word ∧
      (∀ k < 4, (resetWith 0x04371000).mem.get (byteAddr (resetWith 0x04371000).pc k) = byteOf 0x04371000 k) ∧
      decodeWord 0x04371000 = .ok (.mov (.rg 1) (.rg 2)) := by
  decide

theorem witness_HaltedIsTerminal_set :
    start.halted = false ∧ see State.halted (exec .hlt start) = some true := by decide

theorem witness_HaltedIsTerminal_kept : see State.halted (exec .nop { start with halted := true }) = some true := by
  decide

theorem witness_FetchFaults_misaligned :
    ({ start with pc := 0x1003 } : State).halted = false ∧ ({ start with pc := 0x1003 } : State).pc.extractLsb' 0 2 ≠ 0 := by
  decide

theorem witness_FetchFaults_unmapped :
    ({ start with pc := 0x10000 } : State).halted = false ∧
      ({ start with pc := 0x10000 } : State).pc.extractLsb' 0 2 = 0 ∧
      memPermit { start with pc := 0x10000 } .fetch 0x10000 .word = false := by
  decide

theorem witness_NextPcRule_plain : see State.pc (exec .nop { start with pc := 0xFFFFFFFC }) = some 0 := by decide

theorem witness_NextPcRule_jumps :
    see State.pc (exec (.jeq .zero 8) (withSts start 1)) = some 8 ∧
      see State.pc (exec (.jle .zero 8) start) = some 0x1004 := by
  decide

theorem witness_NextPcRule_fault : faultOf (exec (.mov .zero .pcx) start) = some (.protectionFault 0x1000 0x1C) := by
  decide

theorem witness_LittleEndianAccess_top :
    (0xFFFFFFFE : Word).getLsbD 0 = false ∧ (0xFFFFFFFC : Word).extractLsb' 0 2 = 0 := by
  decide

theorem witness_LittleEndianAccess_fetch : (fetch (resetWith 0x92F7B800)).toOption = some 0x92F7B800 := by decide

theorem witness_MemReadRule_permitted : memPermit start .read 0xFFFC .word = true := by decide

theorem witness_MemReadRule_unmapped : memPermit start .read 0x10000 .byte = false := by decide

theorem witness_MemWriteRule_misaligned : (0x1001 : Word).getLsbD 0 = true ∧ (0x1003 : Word).extractLsb' 0 2 ≠ 0 := by
  decide

theorem witness_MemWriteRule_permitted :
    (0xFFFE : Word).getLsbD 0 = false ∧ memPermit start .write 0xFFFE .half = true ∧
      (0xFFFC : Word).extractLsb' 0 2 = 0 ∧ memPermit start .write 0xFFFC .word = true ∧
      memPermit start .write 0xFFFF .byte = true := by
  decide

theorem witness_MemWriteRule_unmapped :
    (0x10000 : Word).extractLsb' 0 2 = 0 ∧ memPermit start .write 0x10000 .word = false := by
  decide

theorem witness_PermitRule_edge :
    memPermit low .read 3 .byte = true ∧ memPermit low .read 4 .byte = false ∧ memPermit low .read 0 .word = true := by
  decide

theorem witness_MixedWidthReads : ((memWrite start 0xFFFC .word 0x11223344).toOption).isSome = true := by decide

theorem witness_StoreSeenByFetch :
    see (bytesAt 0x2000) (exec (.stw .pcx .zero 0x2000) start) = some [0x04, 0x10, 0x00, 0x00] := by
  decide

theorem witness_StepKeepsMemoryCanonical :
    (resetWith 0x2816FFFC).mem.wf ∧ see State.pc (step (resetWith 0x2816FFFC)) = some 0x1004 := by
  decide

theorem witness_MappedIsFixed :
    see State.mapped (step (resetWith 0x02F7B800)) = some [{ base := 0, size := 2 ^ 32 }] := by
  decide

theorem witness_OperandReadRule :
    readable start .idr = true ∧ readable (user start) .idr = false ∧ readable start .pcx = true ∧
      readable start (.internal 0) = false ∧ readable start (.reserved 2) = false := by
  decide

theorem witness_OperandWriteRule :
    writable start .mmr = true ∧ writable (user start) .mmr = false ∧ writable start .pcx = false ∧
      writable start .noreg = false ∧ writable start (.stored 0x13) = true := by
  decide

theorem witness_ZeroRegister_write :
    (Instr.inc .zero).writes = some .zero ∧ see State.pc (exec (.inc .zero) start) = some 0x1004 := by
  decide

theorem witness_ZeroRegister_load_faults :
    readable start .zero = true ∧ faultOf (exec (.ldw .zero .zero 2) start) = some (.alignmentFault 0x1000 2) := by
  decide

theorem witness_ProtectionFaultRule_pcx : faultOf (exec (.lli .pcx 0) start) = some (.protectionFault 0x1000 0x1C) := by
  decide

theorem witness_ProtectionFaultRule_idr :
    (user start).mode = .user ∧ faultOf (exec (.jeq .idr 0) (user start)) = some (.protectionFault 0x1000 0x14) := by
  decide

theorem witness_ProtectionFaultRule_mmr :
    faultOf (exec (.add (.rg 0) .mmr (.rg 0)) (user start)) = some (.protectionFault 0x1000 0x15) := by
  decide

theorem witness_ProtectionFaultRule_noreg : (Instr.mov .noreg .pcx).Uses .noreg := by
  simp [Instr.Uses, Instr.reads]

theorem witness_IllegalOperandFaults :
    (Instr.jeq (.reserved 2) 0).Uses (.reserved 2) ∧ (Reg.reserved 2).Illegal ∧
      (Instr.lui (.internal 0) 0).Uses (.internal 0) ∧ (Reg.internal 0).Illegal := by
  simp [Instr.Uses, Instr.reads, Instr.writes, Reg.Illegal]

/-- The hypotheses of MoveResults, AddSubResults, IncDecResults, ImmediateArithmeticResults, LogicalResults and
LiteralShiftResults at the privileged registers in Kernel mode. -/
theorem witness_results_kernel :
    readable start .pcx = true ∧ readable start .idr = true ∧ writable start .mmr = true ∧ writable start .zero = true := by
  decide

/-- The same in User mode. -/
theorem witness_results_user :
    readable (user start) .pcx = true ∧ readable (user start) .ret = true ∧ writable (user start) .ret = true := by
  decide

theorem witness_RegisterShiftResults :
    writable (user start) .zero = true ∧ readable (user start) .pcx = true := by decide

theorem witness_UndefinedFlagsAreFreshDraws_result :
    see State.undefDraws (exec (.mov .zero .zero) start) = some 5 ∧ (Instr.mov .zero .zero).writesResultFlags = true := by
  decide

theorem witness_UndefinedFlagsAreFreshDraws_other :
    see State.undefDraws (exec (.cmp .zero .zero) start) = some 0 ∧ (Instr.cmp .zero .zero).writesResultFlags = false := by
  decide

theorem witness_CompareResult : readable (user start) .pcx = true ∧ readable (user start) .zero = true := by decide

theorem witness_CompareStatusWord :
    [see State.sts (exec (.cmp .zero .zero) start), see State.sts (exec (.cmp .pcx .zero) start),
      see State.sts (exec (.cmp .zero .pcx) start)] = [some 0x35, some 0x06, some 0x18] := by
  decide

theorem witness_LoadResults_byte : readable start .zero = true ∧ writable start .ret = true ∧
    Accessible State.reset (regRead State.reset .zero + sext16 0xFFFF) .byte := by
  decide

theorem witness_LoadResults_half : Accessible State.reset (regRead State.reset .zero + sext16 0xFFFE) .half := by decide

theorem witness_LoadResults_word : Accessible State.reset (regRead State.reset .zero + sext16 0xFFFC) .word := by decide

theorem witness_StoreResults : readable start .pcx = true ∧ readable start .zero = true ∧
    Accessible start (regRead start .zero + sext16 0x7FFF) .byte ∧
    Accessible start (regRead start .zero + sext16 0x7FFE) .half ∧
    Accessible start (regRead start .zero + sext16 0x7FFC) .word := by
  decide

theorem witness_LoadStoreFaults_misaligned : readable start .zero = true ∧ writable start .zero = true ∧
    (regRead start .zero + sext16 0x7FFF).getLsbD 0 = true ∧
    (regRead start .zero + sext16 0x7FFE).extractLsb' 0 2 ≠ 0 := by
  decide

theorem witness_LoadStoreFaults_unmapped :
    memPermit start .read (regRead start .zero + sext16 0xFFFF) .byte = false ∧
    (regRead start .zero + sext16 0xFFFE).getLsbD 0 = false ∧
    memPermit start .write (regRead start .zero + sext16 0xFFFE) .half = false ∧
    (regRead start .zero + sext16 0xFFFC).extractLsb' 0 2 = 0 ∧
    memPermit start .write (regRead start .zero + sext16 0xFFFC) .word = false := by
  decide

theorem witness_OnlyStoresChangeMemory :
    (Instr.int 0).isStore = false ∧ see State.mode (exec (.int 0) State.reset) = some .kernel := by
  decide

theorem witness_ImmediateLoadResults : writable (user start) .zero = true ∧ writable start .idr = true := by decide

theorem witness_BuildWordWithLliLui :
    writable (user start) (.stored 0x13) = true ∧ writable start (.stored 0x15) = true := by
  decide

theorem witness_JumpResults : readable (user start) .pcx = true ∧ (withSts start 0x2).flags.gt = true ∧
    (withSts start 0x8).flags.lt = true ∧ (withSts start 0x1).flags.eq = true := by
  decide

theorem witness_FlagsReadOnlyByConditionalJumps :
    (Instr.jle .zero 0).isConditionalJump = true ∧ (withSts start 0x34).flags.eq = start.flags.eq ∧
      (withSts start 0x34).flags.gt = start.flags.gt ∧ (withSts start 0x34).flags.lt = start.flags.lt ∧
      (withSts start 0x34).flags ≠ start.flags := by
  decide

theorem witness_IntEntersTrap : beforeInt.ctx.valid = false ∧
    Accessible beforeInt (beforeInt.getX 0x14 + 4 * ((0x01FF : BitVec 16).extractLsb' 0 8).setWidth 32) .word := by
  decide

theorem witness_IntTableFaults_misaligned :
    (start.setX 0x14 0x2003).ctx.valid = false ∧ ((start.setX 0x14 0x2003).getX 0x14).extractLsb' 0 2 ≠ 0 := by
  decide

theorem witness_IntTableFaults_unmapped :
    (user (start.setX 0x14 0x10000)).ctx.valid = false ∧
      ((user (start.setX 0x14 0x10000)).getX 0x14).extractLsb' 0 2 = 0 ∧
      memPermit { user (start.setX 0x14 0x10000) with mode := .kernel } .read
        ((user (start.setX 0x14 0x10000)).getX 0x14 + 4 * ((0 : BitVec 16).extractLsb' 0 8).setWidth 32) .word = false := by
  decide

theorem witness_IrtReturns : (withCtx (user start) 0 .kernel).ctx.valid = true := by decide

theorem witness_IntThenIrtRestores :
    see (fun t => (t.ctx.valid, t.getX 0x13)) (exec (.int 0x80) beforeInt) = some (true, 0x1024) := by
  decide

theorem witness_RefusalsOnlyForContext :
    (withCtx start 0 .user).ctx.valid = true ∧ start.ctx.valid = false ∧
      refusalOf (step (resetWith 0x8EF7B800)) = some .irtWithoutContext := by
  decide

theorem witness_BootFlags : start.sts = 0 ∧ readable start .pcx = true := by decide

theorem witness_UserKeepsPrivilegedRegisters :
    (user (resetWith 0x8AF70000)).mode = .user ∧
      see (fun t => (t.getX 0x14, t.getX 0x15)) (step (user (resetWith 0x8AF70000))) = some (0, 0) := by
  decide

theorem witness_UserCannotSeePrivilegedRegisters :
    (user start).mode = .user ∧ (Instr.ldw .spr .bpr 0).isInt = false := by
  decide

theorem witness_ModeTransitions :
    see State.mode (exec (.int 0x80) beforeInt) = some .kernel ∧
      see State.mode (exec .irt (withCtx start 0 .user)) = some .user ∧
      see State.mode (exec .nop (user start)) = some .user := by
  decide

theorem witness_StepKeepsKernelOnly :
    (resetWith 0x8AF70000).KernelOnly ∧ see State.mode (step (resetWith 0x8AF70000)) = some .kernel :=
  ⟨⟨rfl, by decide⟩, by decide⟩

end Sys2Proof.Tests
end

section
/-!
PROOFS. The extension rule (spec/00_scope.md R7): what each bit of an extended byte or halfword is, once for every width
and then for the model's four extensions.
-/

namespace Sys2Proof.Machine

/-- Sign extension to a word for any non-empty width, in R7's terms: the top bit is bit `n` of an `n + 1`-bit value. -/
theorem getLsbD_signExtend_word {n : Nat} (v : BitVec (n + 1)) {k : Nat} (hk : k < 32) :
    (v.signExtend 32).getLsbD k = if k < n + 1 then v.getLsbD k else v.getLsbD n := by
  have top : v.msb = v.getLsbD n := BitVec.msb_eq_getLsbD_last v
  rw [BitVec.getLsbD_signExtend, top, decide_eq_true hk, Bool.true_and]

/-- Zero extension to a word for any width, in R7's terms. -/
theorem getLsbD_setWidth_word {n : Nat} (v : BitVec n) {k : Nat} (hk : k < 32) :
    (v.setWidth 32).getLsbD k = if k < n then v.getLsbD k else false := by
  rw [BitVec.getLsbD_setWidth, decide_eq_true hk, Bool.true_and]
  split
  case isTrue => rfl
  case isFalse above => exact BitVec.getLsbD_of_ge v k (Nat.le_of_not_lt above)

theorem getLsbD_sext8 (v : Byte) {k : Nat} (hk : k < 32) :
    (sext8 v).getLsbD k = if k < 8 then v.getLsbD k else v.getLsbD 7 :=
  getLsbD_signExtend_word v hk

theorem getLsbD_sext16 (v : BitVec 16) {k : Nat} (hk : k < 32) :
    (sext16 v).getLsbD k = if k < 16 then v.getLsbD k else v.getLsbD 15 :=
  getLsbD_signExtend_word v hk

theorem getLsbD_zext8 (v : Byte) {k : Nat} (hk : k < 32) :
    (zext8 v).getLsbD k = if k < 8 then v.getLsbD k else false :=
  getLsbD_setWidth_word v hk

theorem getLsbD_zext16 (v : BitVec 16) {k : Nat} (hk : k < 32) :
    (zext16 v).getLsbD k = if k < 16 then v.getLsbD k else false :=
  getLsbD_setWidth_word v hk

/-- R69 with R7's reading of "SignExtend(Offset)". -/
theorem effAddr_eq (s : State) (base : Reg) (off : BitVec 16) :
    effAddr s base off = regRead s base + sext16 off := rfl

end Sys2Proof.Machine

namespace Sys2Proof.Proofs

open Sys2Proof.Machine

/-- Settles O11: the bit lemma of each of the four extensions, and the effective address by its definition. -/
theorem extensionRule : Obligations.ExtensionRule :=
  ⟨fun v _ hk => getLsbD_sext8 v hk, fun v _ hk => getLsbD_sext16 v hk, fun v _ hk => getLsbD_zext8 v hk,
    fun v _ hk => getLsbD_zext16 v hk, effAddr_eq⟩

end Sys2Proof.Proofs
end

section
/-!
PROOFS. The halted flag (spec/10_state.md R52): HLT sets it, every other completed instruction keeps it, and no step
leaves a halted state.
-/

namespace Sys2Proof.Machine

@[simp] theorem State.launch_halted (l : Launch) : (State.launch l).halted = false := rfl

theorem exec_hlt (s : State) : exec .hlt s = .next { s.advance with halted := true } := rfl

/-- Of the shapes a completed instruction can have, HLT's alone touches the halted flag. -/
theorem Effect.halted_of_ne_hlt {s t : State} {i : Instr} (h : Effect s i t) (hi : i ≠ .hlt) :
    t.halted = s.halted := by
  cases h with
  | nop => exact State.advance_halted s
  | result dst v => rw [State.advance_halted, setResultFlags_halted, regWrite_halted]
  | load dst v => rw [State.advance_halted, regWrite_halted]
  | store addr v sz => exact State.advance_halted _
  | jump pc => rfl
  | compare a b => rw [State.advance_halted, setCompareFlags_halted]
  | int imm handler => exact trapEntry_halted s handler
  | irt => exact trapReturn_halted s
  | hlt => exact absurd rfl hi

/-- A completed instruction that changes the halted flag is HLT. -/
theorem eq_hlt_of_halted_ne {s t : State} {i : Instr} (h : exec i s = .next t) (changed : t.halted ≠ s.halted) :
    i = .hlt :=
  Classical.byContradiction fun hi => changed ((exec_next_effect h).halted_of_ne_hlt hi)

theorem halted_of_exec_hlt {s t : State} (h : exec .hlt s = .next t) : t.halted = true := by
  rw [exec_hlt, Host.Outcome.next.injEq] at h
  rw [← h]

/-- No completed instruction clears the halted flag. -/
theorem exec_keeps_halted {s t : State} {i : Instr} (h : exec i s = .next t) (hs : s.halted = true) :
    t.halted = true := by
  by_cases hi : i = .hlt
  · subst hi
    exact halted_of_exec_hlt h
  · rw [(exec_next_effect h).halted_of_ne_hlt hi, hs]

theorem step_ne_next_of_halted {s : State} (hs : s.halted = true) (t : State) : step s ≠ .next t := by
  intro h
  obtain ⟨running, -⟩ := step_next h
  rw [running] at hs
  contradiction

end Sys2Proof.Machine

namespace Sys2Proof.Proofs

open Sys2Proof.Machine

/-- Settles O8: everything a completed instruction can have done (`exec_next_effect`) shows HLT as the one instruction
that changes the flag, and a step that answers a next state starts from a running one (`step_next`). -/
theorem haltedIsTerminal : Obligations.HaltedIsTerminal := by
  unfold Obligations.HaltedIsTerminal
  refine ⟨State.launch_halted, fun s => ⟨_, exec_hlt s, rfl⟩, ?setByHltAlone, ?neverCleared, ?noStep⟩
  case setByHltAlone =>
    intro i s t h before after
    exact eq_hlt_of_halted_ne h (by rw [before, after]; decide)
  case neverCleared => exact fun _ _ _ h hs => exec_keeps_halted h hs
  case noStep => exact fun _ t hs => step_ne_next_of_halted hs t

end Sys2Proof.Proofs
end

section
/-!
PROOFS. The flags at boot (spec/10_state.md R53): a status word of 0 is six flags that are false, and a conditional jump
goes to its target or to `pc + 4` as its condition on them says.
-/

namespace Sys2Proof.Machine

/-- A status word of 0 (R45) has every flag false. -/
theorem flags_of_sts_eq_zero {s : State} (h : s.sts = 0) :
    s.flags = { eq := false, gt := false, ge := false, lt := false, le := false, z := false } := by
  obtain ⟨eq0, gt0, ge0, lt0, le0, z0⟩ := s.sts_bits
  rw [h, BitVec.ofNat_eq_ofNat, BitVec.getLsbD_zero] at eq0 gt0 ge0 lt0 le0 z0
  rcases hf : s.flags with ⟨eq, gt, ge, lt, le, z⟩
  rw [hf] at eq0 gt0 ge0 lt0 le0 z0
  subst eq0 gt0 ge0 lt0 le0 z0
  rfl

section Jump

variable {s : State} {base : Reg} (i : Instr) (off : BitVec 16)

/-- A jump whose base register may be read completes (R170). -/
theorem jumpIf_of_readable (cond : Bool) (hb : readable s base = true) :
    jumpIf i cond base off s =
      .next (if cond then { s with pc := effAddr s base off } else s.advance) :=
  execute_of_ok i [.read base] s _ (by simpa using hb)

/-- Where a jump goes whose condition holds. -/
theorem jumpIf_taken {cond : Bool} (hc : cond = true) (hb : readable s base = true) :
    ∃ t, jumpIf i cond base off s = .next t ∧ t.pc = regRead s base + sext16 off := by
  subst hc
  exact ⟨_, jumpIf_of_readable i off true hb, effAddr_eq s base off⟩

/-- Where a jump goes whose condition fails. -/
theorem jumpIf_untaken {cond : Bool} (hc : cond = false) (hb : readable s base = true) :
    ∃ t, jumpIf i cond base off s = .next t ∧ t.pc = s.pc + 4 := by
  subst hc
  exact ⟨_, jumpIf_of_readable i off false hb, State.advance_pc s⟩

end Jump

end Sys2Proof.Machine

namespace Sys2Proof.Proofs

open Sys2Proof.Machine

/-- Settles O52: with every flag false, JNE's condition (R173) holds and those of the other five (R172, R174 to R177)
fail. -/
theorem bootFlags : Obligations.BootFlags := by
  unfold Obligations.BootFlags
  refine ⟨State.launch_sts, State.launch_sts _, fun s hs => ?_⟩
  have clear := flags_of_sts_eq_zero hs
  refine ⟨by simp [clear], fun base off hb => ⟨?jne, ?jeq, ?jgt, ?jge, ?jlt, ?jle⟩⟩
  case jne => exact jumpIf_taken (.jne base off) off (by simp [clear]) hb
  case jeq => exact jumpIf_untaken (.jeq base off) off (by simp [clear]) hb
  case jgt => exact jumpIf_untaken (.jgt base off) off (by simp [clear]) hb
  case jge => exact jumpIf_untaken (.jge base off) off (by simp [clear]) hb
  case jlt => exact jumpIf_untaken (.jlt base off) off (by simp [clear]) hb
  case jle => exact jumpIf_untaken (.jle base off) off (by simp [clear]) hb

end Sys2Proof.Proofs
end

section
/-!
PROOFS. Little-endian memory (spec/20_memory.md R62): byte `k` of an aligned access lies `k` places above its address, once
for every width, and so for a fetched instruction, whose opcode is in its last byte.
-/

namespace Sys2Proof.Machine

theorem Size.bytes_le_four (sz : Size) : sz.bytes ≤ 4 := by
  cases sz <;> decide

theorem aligned_half_iff (a : Word) : aligned a .half = true ↔ a.getLsbD 0 = false := by
  rw [aligned_half, Bool.not_eq_true']

theorem aligned_word_iff (a : Word) : aligned a .word = true ↔ a.extractLsb' 0 2 = 0 := by
  rw [aligned_word, decide_eq_true_iff]

theorem byteOf_zext8 (v : Byte) : byteOf (zext8 v) 0 = v := by
  rw [byteOf, zext8, Nat.mul_zero, BitVec.extractLsb'_setWidth_of_le (by decide), BitVec.extractLsb'_eq_self]

/-- The bytes a load of any width reads. -/
theorem byteOf_load (m : Memory) (a : Word) (sz : Size) {k : Nat} (hk : k < sz.bytes) :
    byteOf (m.load a sz) k = m.get (byteAddr a k) := by
  cases sz with
  | byte =>
    obtain rfl : k = 0 := Nat.lt_one_iff.mp hk
    exact byteOf_zext8 _
  | half =>
    obtain ⟨low, high⟩ := byteOf_load_half m a
    obtain rfl | rfl : k = 0 ∨ k = 1 := Nat.le_one_iff_eq_zero_or_eq_one.mp (Nat.le_of_lt_succ hk)
    · exact low
    · exact high
  | word => exact byteOf_load_word m a hk

section Aligned

variable {a : Word} {sz : Size} {k : Nat}

theorem byteOf_load_aligned (m : Memory) (ha : aligned a sz = true) (hk : k < sz.bytes) :
    byteOf (m.load a sz) k = m.get (a.toNat + k) := by
  rw [byteOf_load m a sz hk, byteAddr_aligned ha hk]

theorem Memory.get_store_aligned (m : Memory) (v : Word) (ha : aligned a sz = true) (hk : k < sz.bytes) :
    (m.store a v sz.bytes).get (a.toNat + k) = byteOf v k := by
  rw [← byteAddr_aligned ha hk, Memory.get_store_byte m a v sz.bytes_le_four hk]

end Aligned

theorem byteOf_fetch {s : State} {w : Word} (h : fetch s = .ok w) {k : Nat} (hk : k < 4) :
    byteOf w k = s.mem.get (s.pc.toNat + k) := by
  obtain ⟨⟨alignedPc, -⟩, rfl⟩ := (fetch_eq_ok s w).mp h
  exact byteOf_load_aligned s.mem alignedPc hk

/-- A run of bits inside a run of bits: the library's `BitVec.extractLsb'_extractLsb'_of_le` for an outer run that need
not begin at bit 0. -/
theorem extractLsb'_of_extractLsb' {n outer inner len : Nat} (x : BitVec n) (start : Nat) (h : inner + len ≤ outer) :
    (x.extractLsb' start outer).extractLsb' inner len = x.extractLsb' (start + inner) len := by
  refine BitVec.eq_of_getLsbD_eq fun i hi => ?_
  have inside : inner + i < outer := by omega
  simp [hi, inside, Nat.add_assoc]

/-- Bits 31 to 26 of a word (R91) are the top six of its last byte. -/
theorem opField_eq_byteOf (w : Word) : opField w = (byteOf w 3).extractLsb' 2 6 := by
  rw [opField, byteOf, extractLsb'_of_extractLsb' w (8 * 3) (by decide)]

/-- Bits 25 and 24 of a word are the top two of its first register field and the low two of its last byte. -/
theorem s1Field_top_eq_byteOf (w : Word) : (s1Field w).extractLsb' 3 2 = (byteOf w 3).extractLsb' 0 2 := by
  rw [s1Field, byteOf, extractLsb'_of_extractLsb' w 21 (by decide), extractLsb'_of_extractLsb' w (8 * 3) (by decide)]

end Sys2Proof.Machine

namespace Sys2Proof.Proofs

open Sys2Proof.Machine

/-- Settles O12: an aligned access does not wrap, so the byte lemma of loads and that of stores give its bytes at
consecutive addresses; a fetch is a word load, and the last byte of its word holds the opcode. -/
theorem littleEndianAccess : Obligations.LittleEndianAccess := by
  unfold Obligations.LittleEndianAccess
  refine ⟨?loadHalf, ?loadWord, ?storeHalf, ?storeWord, ?fetched⟩
  case loadHalf =>
    intro m a even
    have ha := (aligned_half_iff a).mpr even
    exact ⟨byteOf_load_aligned m ha (by decide), byteOf_load_aligned m ha (by decide)⟩
  case loadWord => exact fun m a ha _ hk => byteOf_load_aligned m ((aligned_word_iff a).mpr ha) hk
  case storeHalf => exact fun m a v ha _ hk => m.get_store_aligned v ((aligned_half_iff a).mpr ha) hk
  case storeWord => exact fun m a v ha _ hk => m.get_store_aligned v ((aligned_word_iff a).mpr ha) hk
  case fetched =>
    intro s w h
    have last := byteOf_fetch h (show 3 < 4 by decide)
    rw [← last]
    exact ⟨fun _ hk => byteOf_fetch h hk, opField_eq_byteOf w, s1Field_top_eq_byteOf w⟩

end Sys2Proof.Proofs
end

section
/-!
PROOFS. The encoder and the decoder are inverse (spec/30_encoding.md R91 to R100), and a word passes the fixed field
check of its opcode exactly when it decodes.
-/

namespace Sys2Proof

@[simp] theorem checked_true (i : Instr) : checked true i = .ok i := rfl

@[simp] theorem shUnZero_encR (op : BitVec 6) (s1 s2 d : BitVec 5) : shUnZero (encR op s1 s2 d 0#5 0#6) = true := by
  simp [shUnZero]

@[simp] theorem noOperands_encR (op : BitVec 6) : noOperands (encR op fieldN fieldN fieldN 0#5 0#6) = true := by
  simp [noOperands]

theorem noOperands_iff (w : Word) :
    noOperands w = true ↔
      s1Field w = fieldN ∧ s2Field w = fieldN ∧ dField w = fieldN ∧ shField w = 0 ∧ unField w = 0 := by
  simp [noOperands, isN_iff, shUnZero_iff, and_assoc]

/-- Only the field value of `noreg` names `noreg`. -/
theorem Reg.ofBits_eq_noreg_iff (b : BitVec 5) : Reg.ofBits b = .noreg ↔ b = fieldN := by
  revert b
  decide

/-! ## SHL and SHR (spec/47_shift.md R225) -/

section Shift

variable (lit : Reg → BitVec 5 → Instr) (reg : Reg → Reg → Instr)

/-- A word with `noreg` in bits 20-16 is the literal form. -/
theorem decodeShift_literal (op : BitVec 6) (r : Reg) (count : BitVec 5) :
    decodeShift (encR op r.toBits fieldN r.toBits count 0#6) lit reg = .ok (lit r count) := by
  simp [decodeShift, Reg.ofBits_toBits]

/-- A word with any other index in bits 20-16 is the register form. -/
theorem decodeShift_register (op : BitVec 6) (r count : Reg) (h : count ≠ .noreg) :
    decodeShift (encR op r.toBits count.toBits r.toBits 0#5 0#6) lit reg = .ok (reg r count) := by
  simp [decodeShift, isN_toBits, h, Reg.ofBits_toBits]

/-- The two forms, and the fixed fields of each. -/
theorem decodeShift_eq_ok (w : Word) (i : Instr) :
    decodeShift w lit reg = .ok i ↔
      unField w = 0 ∧ dField w = s1Field w ∧
        (s2Field w = fieldN ∧ lit (.ofBits (s1Field w)) (shField w) = i ∨
          s2Field w ≠ fieldN ∧ shField w = 0 ∧ reg (.ofBits (s1Field w)) (.ofBits (s2Field w)) = i) := by
  unfold decodeShift
  split
  case isTrue literal =>
    rw [isN_iff] at literal
    simp [checked_eq_ok, literal, and_assoc]
  case isFalse register =>
    rw [isN_iff] at register
    simp [checked_eq_ok, register, and_assoc]

end Shift

/-- Decoding the word of a well-formed instruction gives it back: in each row the fixed fields of the row's word pass
their check, and the other fields name the operands. -/
theorem decodeWord_encode (i : Instr) (h : i.wf = true) : decodeWord (encode i) = .ok i := by
  cases i
  case shlReg reg count => simp [encode, decodeWord, decodeShift_register, of_decide_eq_true h]
  case shrReg reg count => simp [encode, decodeWord, decodeShift_register, of_decide_eq_true h]
  all_goals simp [encode, decodeWord, Reg.ofBits_toBits, decodeShift_literal]

/-! ## What a word decodes to -/

/-- An outcome of decoding `w` that, if it is an instruction, is one with the word `w`. -/
def DecodesSoundly (w : Word) (r : Except Reject Instr) : Prop := ∀ i, r = .ok i → i.wf = true ∧ encode i = w

theorem decodesSoundly_ok (w : Word) (i : Instr) : DecodesSoundly w (.ok i) ↔ i.wf = true ∧ encode i = w := by
  simp [DecodesSoundly]

theorem decodesSoundly_error (w : Word) (e : Reject) : DecodesSoundly w (.error e) := by
  simp [DecodesSoundly]

theorem decodesSoundly_checked (w : Word) (b : Bool) (i : Instr) :
    DecodesSoundly w (checked b i) ↔ (b = true → i.wf = true ∧ encode i = w) := by
  cases b
  · simp [checked, decodesSoundly_error]
  · simp [decodesSoundly_ok]

theorem decodesSoundly_decodeShift (w : Word) (lit : Reg → BitVec 5 → Instr) (reg : Reg → Reg → Instr)
    (literal : ∀ r count, (lit r count).wf = true ∧
      encode (lit r count) = encR (opField w) r.toBits fieldN r.toBits count 0)
    (register : ∀ r count, (reg r count).wf = decide (count ≠ .noreg) ∧
      encode (reg r count) = encR (opField w) r.toBits count.toBits r.toBits 0 0) :
    DecodesSoundly w (decodeShift w lit reg) := by
  intro i h
  obtain ⟨un, d, ⟨s2, rfl⟩ | ⟨s2, sh, rfl⟩⟩ := (decodeShift_eq_ok lit reg w i).1 h
  · simp [literal, encR_eq_iff, Reg.toBits_ofBits, un, d, s2]
  · simp [register, encR_eq_iff, Reg.toBits_ofBits, Reg.ofBits_eq_noreg_iff, un, d, s2, sh]

/-- The opcode that selected a row, as the row's word writes it. -/
theorem ofNat_of_opField {w : Word} {k : Nat} (h : (opField w).toNat = k) : BitVec.ofNat 6 k = opField w := by
  rw [← h, BitVec.ofNat_toNat, BitVec.setWidth_eq]

/-- Every accepted word is the word of what it decodes to: in each row the opcode and the fixed fields are what the
row's word has, and the operands are the other fields. -/
theorem decodeWord_sound (w : Word) : DecodesSoundly w (decodeWord w) := by
  unfold decodeWord
  dsimp only
  split <;> rename_i op
  case h_24 | h_25 =>
    -- SHL and SHR
    exact decodesSoundly_decodeShift w _ _ (by simp [Instr.wf, encode, ← ofNat_of_opField op])
      (by simp [Instr.wf, encode, ← ofNat_of_opField op])
  case h_42 =>
    -- an opcode of no row
    exact decodesSoundly_error w _
  all_goals
    simp +contextual [decodesSoundly_ok, decodesSoundly_checked, isN_iff, shUnZero_iff, noOperands_iff, Instr.wf,
      encode, encR_eq_iff, encI_eq_iff, encMeta_eq_iff, Reg.toBits_ofBits, ofNat_of_opField op]

/-! ## Which words decode -/

/-- An outcome of decoding that is a hardware instruction. -/
def IsHardware (r : Except Reject Instr) : Prop := ∃ i, r = .ok i ∧ i.isMeta = false

theorem isHardware_ok (i : Instr) : IsHardware (.ok i) ↔ i.isMeta = false := by
  simp [IsHardware]

theorem not_isHardware_error (e : Reject) : ¬ IsHardware (.error e) := by
  simp [IsHardware]

theorem isHardware_checked (b : Bool) (i : Instr) : IsHardware (checked b i) ↔ b = true ∧ i.isMeta = false := by
  simp [IsHardware, checked_eq_ok, and_assoc]

theorem isHardware_decodeShift (w : Word) (lit : Reg → BitVec 5 → Instr) (reg : Reg → Reg → Instr)
    (literal : ∀ r count, (lit r count).isMeta = false) (register : ∀ r count, (reg r count).isMeta = false) :
    IsHardware (decodeShift w lit reg) ↔
      unField w = 0 ∧ (s2Field w ≠ fieldN → shField w = 0) ∧ dField w = s1Field w := by
  by_cases noreg : s2Field w = fieldN
  · simp [IsHardware, decodeShift_eq_ok, noreg, literal]
  · simp [IsHardware, decodeShift_eq_ok, noreg, register]
    tauto

/-- In each row of R99 the decoder tests what the table marks as fixed. -/
theorem isHardware_decodeWord (w : Word) :
    IsHardware (decodeWord w) ↔ (opField w).toNat < 0x27 ∧ FixedFieldCheck w := by
  have shl := isHardware_decodeShift w .shlLit .shlReg (fun _ _ => rfl) (fun _ _ => rfl)
  have shr := isHardware_decodeShift w .shrLit .shrReg (fun _ _ => rfl) (fun _ _ => rfl)
  unfold decodeWord FixedFieldCheck
  dsimp only
  split <;> rename_i op
  case h_42 =>
    -- an opcode of no row
    simp only [imp_false] at *
    simp only [not_isHardware_error, false_iff, not_and]
    intro below
    omega
  all_goals
    simp [op, isHardware_ok, isHardware_checked, shl, shr, isN_iff, shUnZero_iff, noOperands_iff, Instr.isMeta,
      FixedFieldsOf, rFormatOpcodes, shiftOpcodes, noregFirstOpcodes, noregSecondOpcodes, noregThirdOpcodes, fieldN,
      and_comm, and_left_comm, and_assoc]

end Sys2Proof

namespace Sys2Proof.Proofs

/-- Settles O1: the round trip row by row. -/
theorem decodeOfEncode : Obligations.DecodeOfEncode := decodeWord_encode

/-- Settles O2: the encoder writes back the opcode, the fixed fields and the operands the decoder has found. -/
theorem encodeOfDecode : Obligations.EncodeOfDecode := decodeWord_sound

/-- Settles O5: the fixed field check row by row of the table. -/
theorem decoderSelectsExactly : Obligations.DecoderSelectsExactly := isHardware_decodeWord

/-- Settles O3: fourteen closed words. -/
theorem decodeSampleWords : Obligations.DecodeSampleWords := by
  unfold Obligations.DecodeSampleWords
  decide

/-- Settles O4: the 32 field values. -/
theorem registerIndexMap : Obligations.RegisterIndexMap := by
  unfold Obligations.RegisterIndexMap
  decide

end Sys2Proof.Proofs
end

section
/-!
PROOFS. The step (spec/10_state.md R41): fetch, decode and execute, one lemma for each way through it.
-/

namespace Sys2Proof.Machine

/-! ## The ways through a step -/

section Step

variable {s : State} (running : s.halted = false)

include running

theorem step_of_fetch_error {f : Fault} (h : fetch s = .error f) : step s = .fault f := by
  simp [step, stopped, running, h]

theorem step_of_reject {w : Word} {why : Reject} (hw : fetch s = .ok w) (hd : decodeWord w = .error why) :
    step s = .fault (.illegalInstruction s.pc w) := by
  simp [step, stopped, running, hw, hd, rejected]

theorem step_of_decode {w : Word} {i : Instr} (hw : fetch s = .ok w) (hd : decodeWord w = .ok i) :
    step s = exec i s := by
  simp [step, stopped, running, hw, hd]

end Step

/-- A step that is refused is an instruction that is refused. -/
theorem step_refused {s : State} {r : Refusal} (h : step s = .refused r) : ∃ i, exec i s = .refused r := by
  cases halted : s.halted
  case true => simp [step, stopped, halted] at h
  case false =>
    cases hw : fetch s with
    | error f => simp [step_of_fetch_error halted hw] at h
    | ok w =>
      cases hd : decodeWord w with
      | error why => simp [step_of_reject halted hw hd] at h
      | ok i => exact ⟨i, (step_of_decode halted hw hd).symm.trans h⟩

/-- SEGMENT and DATA raise Illegal Instruction with their word (spec/49_meta.md R250, R251). -/
theorem exec_of_isMeta {i : Instr} (h : i.isMeta = true) (s : State) :
    exec i s = .fault (.illegalInstruction s.pc (encode i)) := by
  cases i
  case segment rest => rfl
  case data rest => rfl
  all_goals simp [Instr.isMeta] at h

/-- A fetched word that is no hardware instruction raises Illegal Instruction, whether the decoder rejects it or it is a
meta opcode. -/
theorem step_of_not_isHardware {s : State} {w : Word} (running : s.halted = false) (hw : fetch s = .ok w)
    (h : ¬ IsHardware (decodeWord w)) : step s = .fault (.illegalInstruction s.pc w) := by
  cases hd : decodeWord w with
  | error why => exact step_of_reject running hw hd
  | ok i =>
    have isMeta : i.isMeta = true := by simpa [hd, isHardware_ok] using h
    obtain ⟨-, word⟩ := decodeWord_sound w i hd
    rw [step_of_decode running hw hd, exec_of_isMeta isMeta, word]

/-! ## The word at `pc`, and the access check -/

/-- Four bytes in memory that are those of a word load as that word. -/
theorem load_word_of_bytes {m : Memory} {a w : Word} (h : ∀ k < 4, m.get (byteAddr a k) = byteOf w k) :
    m.load a .word = w := by
  simp [Memory.load, h, wordOfBytes_byteOf]

theorem accessFault_of_misaligned {s : State} {kind : AccessKind} {addr : Word} {sz : Size}
    (h : aligned addr sz = false) : accessFault s kind addr sz = some (.alignmentFault s.pc addr) := by
  simp [accessFault, h]

theorem accessFault_of_not_permitted {s : State} {kind : AccessKind} {addr : Word} {sz : Size}
    (ha : aligned addr sz = true) (hp : memPermit s kind addr sz = false) :
    accessFault s kind addr sz = some (.memoryAccessViolation s.pc addr) := by
  simp [accessFault, ha, hp]

theorem aligned_half_eq_false_iff (a : Word) : aligned a .half = false ↔ a.getLsbD 0 = true := by
  simp [aligned_half]

theorem aligned_word_eq_false_iff (a : Word) : aligned a .word = false ↔ a.extractLsb' 0 2 ≠ 0 := by
  simp [aligned_word]

/-! ## The exception of an access, by the bits of its address (spec/20_memory.md R65) -/

section AccessFault

variable {s : State} {kind : AccessKind} {a : Word}

theorem accessFault_byte (h : memPermit s kind a .byte = false) :
    accessFault s kind a .byte = some (.memoryAccessViolation s.pc a) :=
  accessFault_of_not_permitted (aligned_byte a) h

theorem accessFault_odd_half (h : a.getLsbD 0 = true) : accessFault s kind a .half = some (.alignmentFault s.pc a) :=
  accessFault_of_misaligned ((aligned_half_eq_false_iff a).2 h)

theorem accessFault_even_half (even : a.getLsbD 0 = false) (h : memPermit s kind a .half = false) :
    accessFault s kind a .half = some (.memoryAccessViolation s.pc a) :=
  accessFault_of_not_permitted ((aligned_half_iff a).2 even) h

theorem accessFault_misaligned_word (h : a.extractLsb' 0 2 ≠ 0) :
    accessFault s kind a .word = some (.alignmentFault s.pc a) :=
  accessFault_of_misaligned ((aligned_word_eq_false_iff a).2 h)

theorem accessFault_aligned_word (alignedWord : a.extractLsb' 0 2 = 0) (h : memPermit s kind a .word = false) :
    accessFault s kind a .word = some (.memoryAccessViolation s.pc a) :=
  accessFault_of_not_permitted ((aligned_word_iff a).2 alignedWord) h

end AccessFault

end Sys2Proof.Machine

namespace Sys2Proof.Proofs

open Sys2Proof.Machine

/-- Settles O6: by O5 such a word is no hardware instruction. -/
theorem illegalWordFaults : Obligations.IllegalWordFaults := by
  unfold Obligations.IllegalWordFaults
  intro s w running hw bad
  refine step_of_not_isHardware running hw fun hardware => ?_
  obtain ⟨below, fixed⟩ := (isHardware_decodeWord w).1 hardware
  exact bad.elim (Nat.not_le_of_lt below) (· fixed)

/-- Settles O7: the fetch gives the word, whose bytes memory holds. -/
theorem stepRunsDecodedInstruction : Obligations.StepRunsDecodedInstruction := by
  unfold Obligations.StepRunsDecodedInstruction
  intro s w i running accessible bytes hd
  have fetched : fetch s = .ok w := (fetch_eq_ok s w).2 ⟨accessible, (load_word_of_bytes bytes).symm⟩
  exact step_of_decode running fetched hd

/-- Settles O9: the two exceptions of the access check (R66 to R68). -/
theorem fetchFaults : Obligations.FetchFaults := by
  unfold Obligations.FetchFaults
  exact fun s running =>
    ⟨fun misaligned => step_of_fetch_error running ((fetch_eq_error s _).2 (accessFault_misaligned_word misaligned)),
      fun alignedPc rejects =>
        step_of_fetch_error running ((fetch_eq_error s _).2 (accessFault_aligned_word alignedPc rejects))⟩

end Sys2Proof.Proofs
end

section
/-!
PROOFS. Frames and invariants, read off from the shapes of a completed instruction (`Effect`): memory, the mapped set,
mode and context, the privileged registers, the undefined flags.
-/

namespace Sys2Proof.Machine

/-! ## INT and IRT, the two instructions that touch mode and context -/

theorem exec_int_eq_next (imm : BitVec 16) (s t : State) :
    exec (.int imm) s = .next t ↔
      s.ctx.valid = false ∧ ∃ handler, readHandler s (intCode imm) = .ok handler ∧ trapEntry s handler = t := by
  simp only [exec, execInt]
  split <;> simp_all [attempt_eq_next]

theorem exec_irt_eq_next (s t : State) : exec .irt s = .next t ↔ s.ctx.valid = true ∧ trapReturn s = t := by
  simp only [exec, execIrt]
  split <;> simp_all

theorem isInt_iff (i : Instr) : i.isInt = true ↔ ∃ imm, i = .int imm := by
  cases i <;> simp [Instr.isInt]

/-- INT, IRT, and the rest. -/
theorem int_or_irt_or_plain (i : Instr) : (∃ imm, i = .int imm) ∨ i = .irt ∨ i.isInt = false ∧ i ≠ .irt := by
  rw [← isInt_iff]
  cases i.isInt <;> simp [em]

/-! ## Frames of a completed instruction -/

section Frames

variable {s t : State} {i : Instr}

theorem Effect.mapped_eq (h : Effect s i t) : t.mapped = s.mapped := by
  cases h <;> simp

/-- Memory is as before, or a store has written some of its bytes. -/
theorem Effect.mem_eq_or_store (h : Effect s i t) :
    t.mem = s.mem ∨ i.isStore = true ∧ ∃ addr v n, t.mem = s.mem.store addr v n := by
  cases h with
  | store _ addr v sz isStore => exact .inr ⟨isStore, addr, v, sz.bytes, rfl⟩
  | _ => exact .inl (by simp)

/-- Mode and context are the business of INT and IRT. -/
theorem Effect.mode_ctx_of_plain (h : Effect s i t) (notInt : i.isInt = false) (notIrt : i ≠ .irt) :
    t.mode = s.mode ∧ t.ctx = s.ctx := by
  cases h with
  | int => simp [Instr.isInt] at notInt
  | irt => exact absurd rfl notIrt
  | _ => simp

/-- An instruction that is neither a jump nor INT nor IRT moves on to the next one. -/
theorem Effect.pc_of_sequential (h : Effect s i t) (notJump : i.isJump = false) (notInt : i.isInt = false)
    (notIrt : i ≠ .irt) : t.pc = s.pc + 4 := by
  cases h with
  | jump _ pc isJump => simp [notJump] at isJump
  | int => simp [Instr.isInt] at notInt
  | irt => exact absurd rfl notIrt
  | _ => simp

/-! ## The undefined flags (spec/10_state.md R48) -/

theorem writesResultFlags_of_isStore (h : i.isStore = true) : i.writesResultFlags = false := by
  cases i
  case stb | sth | stw => rfl
  all_goals simp [Instr.isStore] at h

theorem writesResultFlags_of_isJump (h : i.isJump = true) : i.writesResultFlags = false := by
  cases i
  case jmp | jeq | jne | jgt | jge | jlt | jle => rfl
  all_goals simp [Instr.isJump] at h

theorem Effect.result_of_writesResultFlags (h : Effect s i t) (hi : i.writesResultFlags = true) :
    ∃ dst v, i.writes = some dst ∧ writable s dst = true ∧ t = (setResultFlags (regWrite s dst v) v).advance := by
  cases h with
  | result _ dst v _ writes ok => exact ⟨dst, v, writes, ok, rfl⟩
  | load _ dst v plain => simp [hi] at plain
  | store _ addr v sz isStore => simp [writesResultFlags_of_isStore isStore] at hi
  | jump _ pc isJump => simp [writesResultFlags_of_isJump isJump] at hi
  | _ => simp [Instr.writesResultFlags] at hi

theorem Effect.undefDraws_eq (h : Effect s i t) (hi : i.writesResultFlags = false) : t.undefDraws = s.undefDraws := by
  cases h with
  | result _ dst v flags => simp [hi] at flags
  | _ => simp

/-! ## The privileged registers (spec/60_exceptions.md R277) -/

theorem privileged_iff (r : Reg) : privileged r = true ↔ r = .idr ∨ r = .mmr := by
  simp [privileged]

/-- A register that User mode may read is not `idr` or `mmr`. -/
theorem not_privileged_of_readable {r : Reg} (user : s.mode = .user) (h : readable s r = true) :
    privileged r = false := by
  obtain ⟨-, notProtected⟩ := (readable_iff s r).1 h
  simpa [readProtected, user] using notProtected

theorem ne_of_writable_of_privileged {r q : Reg} (user : s.mode = .user) (h : writable s r = true)
    (hq : privileged q = true) : r ≠ q := by
  rintro rfl
  simp [not_privileged_of_readable user (readable_of_writable h)] at hq

theorem Effect.getX_of_privileged (h : Effect s i t) (user : s.mode = .user) {j : Fin 22}
    (hj : privileged (.stored j) = true) : t.getX j = s.getX j := by
  have notTrapRegister : j ≠ bprIndex ∧ j ≠ retIndex := by
    revert j
    decide
  cases h with
  | result _ dst v _ _ ok | load _ dst v _ _ _ ok =>
    simp [regWrite_getX, ne_of_writable_of_privileged user ok hj]
  | int => simp [trapEntry_getX, notTrapRegister]
  | irt => simp [trapReturn_getX, notTrapRegister]
  | _ => rfl

end Frames

/-! ## Invariants of every completed instruction -/

theorem Effect.wf_mem {s t : State} {i : Instr} (h : Effect s i t) (wf : s.mem.wf) : t.mem.wf := by
  obtain same | ⟨-, addr, v, n, stored⟩ := h.mem_eq_or_store
  · exact same ▸ wf
  · exact stored ▸ Memory.wf_store wf addr v n

theorem kernelOnly_trapEntry {s : State} (h : s.KernelOnly) (handler : Word) : (trapEntry s handler).KernelOnly :=
  ⟨rfl, fun _ => h.1⟩

theorem kernelOnly_trapReturn {s : State} (h : s.KernelOnly) (valid : s.ctx.valid = true) :
    (trapReturn s).KernelOnly :=
  ⟨h.2 valid, fun _ => h.2 valid⟩

theorem exec_keeps_kernelOnly {s t : State} {i : Instr} (h : exec i s = .next t) (ko : s.KernelOnly) :
    t.KernelOnly := by
  obtain ⟨imm, rfl⟩ | rfl | ⟨notInt, notIrt⟩ := int_or_irt_or_plain i
  · obtain ⟨-, handler, -, rfl⟩ := (exec_int_eq_next imm s t).1 h
    exact kernelOnly_trapEntry ko handler
  · obtain ⟨valid, rfl⟩ := (exec_irt_eq_next s t).1 h
    exact kernelOnly_trapReturn ko valid
  · obtain ⟨mode, ctx⟩ := (exec_next_effect h).mode_ctx_of_plain notInt notIrt
    simpa [State.KernelOnly, mode, ctx] using ko

/-- A step that answers a next state completes an instruction. -/
theorem step_next_effect {s t : State} (h : step s = .next t) : ∃ i, exec i s = .next t ∧ Effect s i t := by
  obtain ⟨-, -, i, -, -, hi⟩ := step_next h
  exact ⟨i, hi, exec_next_effect hi⟩

end Sys2Proof.Machine

namespace Sys2Proof.Proofs

open Sys2Proof.Machine

/-- Settles O18: a step leaves memory as it is or stores bytes in it, and a store keeps the canonical form. -/
theorem stepKeepsMemoryCanonical : Obligations.StepKeepsMemoryCanonical := by
  unfold Obligations.StepKeepsMemoryCanonical
  intro s t wf h
  obtain ⟨i, -, effect⟩ := step_next_effect h
  exact effect.wf_mem wf

/-- Settles O58: INT saves Kernel mode and enters it, IRT restores a Kernel context, and nothing else touches either. -/
theorem stepKeepsKernelOnly : Obligations.StepKeepsKernelOnly := by
  unfold Obligations.StepKeepsKernelOnly
  intro s t ko h
  obtain ⟨i, hi, -⟩ := step_next_effect h
  exact exec_keeps_kernelOnly hi ko

/-- Settles O19: no shape of a completed instruction touches the mapped set. -/
theorem mappedIsFixed : Obligations.MappedIsFixed := by
  unfold Obligations.MappedIsFixed
  intro s t h
  obtain ⟨i, -, effect⟩ := step_next_effect h
  exact effect.mapped_eq

/-- Settles O40: of the shapes of a completed instruction, the store's alone touches memory. -/
theorem onlyStoresChangeMemory : Obligations.OnlyStoresChangeMemory := by
  unfold Obligations.OnlyStoresChangeMemory
  intro i s t notStore h a
  obtain same | ⟨isStore, -⟩ := (exec_next_effect h).mem_eq_or_store
  · rw [same]
  · simp [notStore] at isStore

/-- Settles O57: trap entry, trap return, and the frame of the rest. -/
theorem modeTransitions : Obligations.ModeTransitions := by
  unfold Obligations.ModeTransitions
  intro i s t h
  refine ⟨fun isInt => ?_, ?_, fun notInt notIrt => ((exec_next_effect h).mode_ctx_of_plain notInt notIrt).1⟩
  · obtain ⟨imm, rfl⟩ := (isInt_iff i).1 isInt
    obtain ⟨-, handler, -, rfl⟩ := (exec_int_eq_next imm s t).1 h
    exact trapEntry_mode s handler
  · rintro rfl
    obtain ⟨-, rfl⟩ := (exec_irt_eq_next s t).1 h
    exact trapReturn_mode s

/-- Settles O55: a destination that passes its check in User mode is neither of the two, and a trap writes `ret` and
`bpr` alone. -/
theorem userKeepsPrivilegedRegisters : Obligations.UserKeepsPrivilegedRegisters := by
  unfold Obligations.UserKeepsPrivilegedRegisters
  intro s t user h
  obtain ⟨i, -, effect⟩ := step_next_effect h
  exact ⟨effect.getX_of_privileged user (by decide), effect.getX_of_privileged user (by decide)⟩

/-- Settles O33: the shape of the instructions that write the flags from a result, and that no other shape draws. -/
theorem undefinedFlagsAreFreshDraws : Obligations.UndefinedFlagsAreFreshDraws := by
  unfold Obligations.UndefinedFlagsAreFreshDraws
  intro i s t h
  refine ⟨fun flags => ?_, (exec_next_effect h).undefDraws_eq⟩
  obtain ⟨dst, v, -, -, rfl⟩ := (exec_next_effect h).result_of_writesResultFlags flags
  simp

/-- Settles O54: memory is empty, the mode Kernel, and no context saved. -/
theorem invariantsAtReset : Obligations.InvariantsAtReset :=
  ⟨Memory.wf_nil, rfl, fun saved => Bool.noConfusion saved⟩

end Sys2Proof.Proofs
end

section
/-!
PROOFS. The access primitives (spec/20_memory.md R65 to R70) as equations, and accesses of different widths to one word.
-/

namespace Sys2Proof.Machine

/-! ## MemRead and MemWrite as equations (R66, R67) -/

theorem memRead_eq (s : State) (a : Word) (sz : Size) :
    memRead s a sz =
      if aligned a sz then
        if memPermit s .read a sz then .ok (s.mem.load a sz) else .error (.memoryAccessViolation s.pc a)
      else .error (.alignmentFault s.pc a) := by
  unfold memRead accessFault
  split_ifs <;> rfl

theorem memWrite_eq (s : State) (a v : Word) (sz : Size) :
    memWrite s a sz v =
      if aligned a sz then
        if memPermit s .write a sz then .ok { s with mem := s.mem.store a v sz.bytes }
        else .error (.memoryAccessViolation s.pc a)
      else .error (.alignmentFault s.pc a) := by
  unfold memWrite accessFault
  split_ifs <;> rfl

theorem byteAddr_zero (a : Word) : byteAddr a 0 = a.toNat := by
  simp [byteAddr]

theorem load_byte (m : Memory) (a : Word) : m.load a .byte = zext8 (m.get a.toNat) := by
  rw [Memory.load, byteAddr_zero]

theorem load_half_of_aligned (m : Memory) {a : Word} (h : aligned a .half = true) :
    m.load a .half = zext16 (m.get (a.toNat + 1) ++ m.get a.toNat) := by
  rw [Memory.load, byteAddr_zero, byteAddr_aligned h (by decide)]

theorem load_word_of_aligned (m : Memory) {a : Word} (h : aligned a .word = true) :
    m.load a .word =
      m.get (a.toNat + 3) ++ m.get (a.toNat + 2) ++ m.get (a.toNat + 1) ++ m.get a.toNat := by
  simp only [Memory.load, byteAddr_zero, byteAddr_aligned h (show 1 < Size.bytes .word by decide),
    byteAddr_aligned h (show 2 < Size.bytes .word by decide), byteAddr_aligned h (show 3 < Size.bytes .word by decide),
    wordOfBytes]

/-- The bytes an aligned store leaves alone. -/
theorem get_store_aligned_other (m : Memory) {a : Word} {sz : Size} (v : Word) (h : aligned a sz = true) {b : Nat}
    (outside : ∀ k < sz.bytes, b ≠ a.toNat + k) : (m.store a v sz.bytes).get b = m.get b :=
  m.get_store_other a v sz.bytes fun k hk => byteAddr_aligned h hk ▸ outside k hk

/-! ## Parts of a word (R64) -/

theorem byteAddr_add (a : Word) (j k : Nat) : byteAddr (a + BitVec.ofNat 32 j) k = byteAddr a (j + k) := by
  rw [byteAddr, byteAddr, BitVec.ofNat_add, BitVec.add_assoc]

/-- A naturally aligned part of an accessible word is accessible. -/
theorem accessible_part {s : State} {a : Word} (h : Accessible s a .word) {sz : Size} {j : Nat}
    (natural : j % sz.bytes = 0) (inside : j + sz.bytes ≤ 4) : Accessible s (a + BitVec.ofNat 32 j) sz := by
  obtain ⟨alignedWord, mapped⟩ := h
  refine ⟨?_, fun k hk => ?_⟩
  · have start : (a + BitVec.ofNat 32 j).toNat = a.toNat + j :=
      byteAddr_aligned alignedWord (show j < 4 by cases sz <;> simp only [Size.bytes] at inside <;> omega)
    have multiple : a.toNat % 4 = 0 := by simpa [aligned, Size.bytes] using alignedWord
    simp only [aligned, start, beq_iff_eq]
    cases sz <;> simp only [Size.bytes] at natural ⊢ <;> omega
  · rw [byteAddr_add]
    exact mapped (j + k) (by simp only [Size.bytes]; omega)

theorem load_byte_store (m : Memory) (a v : Word) {j : Nat} (hj : j < 4) :
    (m.store a v 4).load (a + BitVec.ofNat 32 j) .byte = zext8 (byteOf v j) := by
  rw [Memory.load, byteAddr_add, Nat.add_zero, Memory.get_store_byte m a v (Nat.le_refl 4) hj]

theorem load_half_store (m : Memory) (a v : Word) {j : Nat} (hj : j + 1 < 4) :
    (m.store a v 4).load (a + BitVec.ofNat 32 j) .half = zext16 (v.extractLsb' (8 * j) 16) := by
  have halves : byteOf v (j + 1) ++ byteOf v j = v.extractLsb' (8 * j) 16 :=
    BitVec.extractLsb'_append_extractLsb'_eq_extractLsb' (by omega)
  rw [Memory.load, byteAddr_add, byteAddr_add, Memory.get_store_byte m a v (Nat.le_refl 4) hj,
    Memory.get_store_byte m a v (Nat.le_refl 4) (by omega), ← halves]
  rfl

/-- After a word is written, a naturally aligned part of it can be read. -/
theorem memRead_part_of_memWrite {s t : State} {a v : Word} (h : memWrite s a .word v = .ok t) {sz : Size} {j : Nat}
    (natural : j % sz.bytes = 0) (inside : j + sz.bytes ≤ 4) :
    memRead t (a + BitVec.ofNat 32 j) sz = .ok ((s.mem.store a v 4).load (a + BitVec.ofNat 32 j) sz) := by
  obtain ⟨accessible, rfl⟩ := (memWrite_eq_ok s a .word v t).1 h
  exact (memRead_eq_ok _ _ _ _).2 ⟨accessible_part accessible natural inside, rfl⟩

/-! ## A store and the fetch after it (R78) -/

theorem exec_stw_eq_next {s t : State} {src base : Reg} {off : BitVec 16} (h : exec (.stw src base off) s = .next t) :
    Accessible s (effAddr s base off) .word ∧
      t = State.advance { s with mem := s.mem.store (effAddr s base off) (regRead s src) 4 } := by
  obtain ⟨-, stored⟩ := (execute_eq_next ..).1 h
  obtain ⟨u, written, done⟩ := (attempt_eq_next ..).1 stored
  obtain ⟨accessible, rfl⟩ := (memWrite_eq_ok ..).1 written
  exact ⟨accessible, (Host.Outcome.next.inj done).symm⟩

end Sys2Proof.Machine

namespace Sys2Proof.Proofs

open Sys2Proof.Machine

/-- Settles O15: the law of `memPermit`. -/
theorem permitRule : Obligations.PermitRule := memPermit_iff

/-- Settles O13: the alignment test as bits of the address, and the load of each width without wrapping. -/
theorem memReadRule : Obligations.MemReadRule := by
  unfold Obligations.MemReadRule
  intro s a
  refine ⟨?byte, ?half, ?word⟩
  case byte => rw [memRead_eq, aligned_byte, load_byte, if_pos rfl]
  case half =>
    rw [memRead_eq]
    cases ha : aligned a .half
    · rw [if_neg Bool.false_ne_true, if_pos ((aligned_half_eq_false_iff a).1 ha)]
    · rw [if_pos rfl, (aligned_half_iff a).1 ha, if_neg Bool.false_ne_true, load_half_of_aligned _ ha]
  case word =>
    rw [memRead_eq]
    cases ha : aligned a .word
    · rw [if_neg Bool.false_ne_true, if_pos ((aligned_word_eq_false_iff a).1 ha)]
    · rw [if_pos rfl, if_neg (not_not.2 ((aligned_word_iff a).1 ha)), load_word_of_aligned _ ha]

/-- Settles O14: the access check in order, then the bytes of an aligned store and its frame. -/
theorem memWriteRule : Obligations.MemWriteRule := by
  unfold Obligations.MemWriteRule
  intro s a v
  refine ⟨fun odd => ?half, fun misaligned => ?word, fun sz evenHalf evenWord => ?aligned⟩
  case half => simp [memWrite_eq, (aligned_half_eq_false_iff a).2 odd]
  case word => simp [memWrite_eq, (aligned_word_eq_false_iff a).2 misaligned]
  case aligned =>
    have ha : aligned a sz = true := by
      cases sz with
      | byte => exact aligned_byte a
      | half => exact (aligned_half_iff a).2 (evenHalf rfl)
      | word => exact (aligned_word_iff a).2 (evenWord rfl)
    refine ⟨fun rejected => by simp [memWrite_eq, ha, rejected], fun permitted => ?_⟩
    exact ⟨{ s with mem := s.mem.store a v sz.bytes }, by simp [memWrite_eq, ha, permitted],
      fun k hk => s.mem.get_store_aligned v ha hk, fun b => get_store_aligned_other s.mem v ha, rfl⟩

/-- Settles O16: each part is accessible where the word is, and its bytes are those stored. -/
theorem mixedWidthReads : Obligations.MixedWidthReads := by
  unfold Obligations.MixedWidthReads
  intro s t a v h
  have part := @memRead_part_of_memWrite s t a v h
  have base : a + BitVec.ofNat 32 0 = a := BitVec.add_zero a
  have byte {j : Nat} (hj : j < 4) : memRead t (a + BitVec.ofNat 32 j) .byte = .ok (zext8 (byteOf v j)) := by
    rw [part (Nat.mod_one j) hj, load_byte_store s.mem a v hj]
  have half {j : Nat} (even : j % 2 = 0) (hj : j + 2 ≤ 4) :
      memRead t (a + BitVec.ofNat 32 j) .half = .ok (zext16 (v.extractLsb' (8 * j) 16)) := by
    rw [part even hj, load_half_store s.mem a v hj]
  have word : memRead t (a + BitVec.ofNat 32 0) .word = .ok v := by
    rw [part rfl (Nat.le_refl 4), base, Memory.load_store_word]
  refine ⟨base ▸ word, base ▸ byte (by decide), byte (by decide), byte (by decide), byte (by decide), ?_, ?_⟩
  · exact base ▸ half rfl (by decide)
  · exact half rfl (by decide)

/-- Settles O17: a word reads back where it was stored, and what may be written may be fetched. -/
theorem storeSeenByFetch : Obligations.StoreSeenByFetch := by
  unfold Obligations.StoreSeenByFetch
  intro s t src base off h
  obtain ⟨accessible, rfl⟩ := exec_stw_eq_next h
  exact (fetch_eq_ok _ _).2 ⟨accessible, (s.mem.load_store_word _ _).symm⟩

end Sys2Proof.Proofs
end

section
/-!
PROOFS. The forms of an instruction's meaning, said once for all 43 constructors: the register checks, and then one of
six bodies, whose values come from the registers read and whose jump condition comes from the flags a conditional jump
may read. INT, IRT, NOP, HLT and the meta opcodes are their own forms.
-/

namespace Sys2Proof.Machine

/-- `f` takes from the state no more than what the registers that `i` reads hold. -/
def ReadsOnly (i : Instr) (f : State → Word) : Prop :=
  ∀ s t : State, (∀ r ∈ i.reads, regRead t r = regRead s r) → f t = f s

/-- `cond` takes from the flags no more than what `i` may read: Equal, GreaterThan and LessThan for a conditional
jump, and nothing for any other instruction (spec/10_state.md R47). -/
def TestsOnly (i : Instr) (cond : Flags → Bool) : Prop :=
  ∀ f g : Flags, (i.isConditionalJump = true → g.eq = f.eq ∧ g.gt = f.gt ∧ g.lt = f.lt) → cond g = cond f

/-- The forms of an instruction's meaning. -/
inductive Meaning : Instr → Prop
  /-- Arithmetic, logic, shifts, MOV, MOVS. -/
  | result {i : Instr} (dst : Reg) (value : State → Word) (writes : i.writes = some dst)
      (eq : ∀ s, exec i s = execute i (useList i) s (finishResult dst (value s) s)) (reads : ReadsOnly i value) :
      Meaning i
  /-- CMP. -/
  | compare (a b : Reg) : Meaning (.cmp a b)
  /-- The five loads. -/
  | load {i : Instr} (dst : Reg) (addr : State → Word) (sz : Size) (ext : Word → Word) (writes : i.writes = some dst)
      (eq : ∀ s, exec i s = execute i (useList i) s
        (attempt (memRead s (addr s) sz) fun v => .next (regWrite s dst (ext v)).advance))
      (reads : ReadsOnly i addr) : Meaning i
  /-- LLI and LUI. -/
  | immediateLoad {i : Instr} (dst : Reg) (value : State → Word) (writes : i.writes = some dst)
      (eq : ∀ s, exec i s = execute i (useList i) s (.next (regWrite s dst (value s)).advance))
      (reads : ReadsOnly i value) : Meaning i
  /-- The three stores. -/
  | store {i : Instr} (addr value : State → Word) (sz : Size)
      (eq : ∀ s, exec i s = execute i (useList i) s
        (attempt (memWrite s (addr s) sz (value s)) fun t => .next t.advance))
      (readsAddr : ReadsOnly i addr) (readsValue : ReadsOnly i value) : Meaning i
  /-- The seven jumps. -/
  | jump {i : Instr} (cond : Flags → Bool) (target : State → Word)
      (eq : ∀ s, exec i s = execute i (useList i) s
        (.next (if cond s.flags then { s with pc := target s } else s.advance)))
      (reads : ReadsOnly i target) (tests : TestsOnly i cond) : Meaning i
  /-- NOP. -/
  | nop : Meaning .nop
  /-- HLT. -/
  | hlt : Meaning .hlt
  /-- INT. -/
  | int (imm : BitVec 16) : Meaning (.int imm)
  /-- IRT. -/
  | irt : Meaning .irt
  /-- SEGMENT and DATA. -/
  | illegal {i : Instr} (isMeta : i.isMeta = true) : Meaning i

/-- The register a load or a store has its address from is one it reads. -/
theorem readsOnly_effAddr {i : Instr} {base : Reg} (off : BitVec 16) (h : base ∈ i.reads) :
    ReadsOnly i (fun s => effAddr s base off) := by
  intro s t same
  simp only [effAddr_eq, same base h]

/-- A jump reads its base register, taken or not. -/
theorem meaning_of_jumpIf {i : Instr} {base : Reg} {off : BitVec 16} (cond : Flags → Bool)
    (eq : ∀ s, exec i s = jumpIf i (cond s.flags) base off s) (reads : i.reads = [base]) (writes : i.writes = none)
    (tests : TestsOnly i cond) : Meaning i := by
  have uses : useList i = [.read base] := by simp [useList, reads, writes]
  exact .jump cond (fun s => effAddr s base off) (fun s => by rw [eq, uses, jumpIf])
    (readsOnly_effAddr off (by simp [reads])) tests

/-- Every instruction has one of the forms. -/
theorem meaning_of (i : Instr) : Meaning i := by
  cases i
  case nop => exact .nop
  case hlt => exact .hlt
  case int imm => exact .int imm
  case irt => exact .irt
  case cmp a b => exact .compare a b
  case segment | data => exact .illegal rfl
  case ldb | ldbs | ldh | ldhs | ldw =>
    exact .load _ _ _ _ rfl (fun _ => rfl) (readsOnly_effAddr _ (by simp [Instr.reads]))
  case lli | lui => exact .immediateLoad _ _ rfl (fun _ => rfl) (by simp +contextual [ReadsOnly, Instr.reads])
  case stb | sth | stw =>
    exact .store _ _ _ (fun _ => rfl) (readsOnly_effAddr _ (by simp [Instr.reads]))
      (by simp +contextual [ReadsOnly, Instr.reads])
  case jmp => exact meaning_of_jumpIf (fun _ => true) (fun _ => rfl) rfl rfl (fun _ _ _ => rfl)
  case jeq => exact meaning_of_jumpIf (fun f => f.eq) (fun _ => rfl) rfl rfl (fun _ _ same => (same rfl).1)
  case jne =>
    exact meaning_of_jumpIf (fun f => !f.eq) (fun _ => rfl) rfl rfl (fun _ _ same => by simp [(same rfl).1])
  case jgt => exact meaning_of_jumpIf (fun f => f.gt) (fun _ => rfl) rfl rfl (fun _ _ same => (same rfl).2.1)
  case jge =>
    exact meaning_of_jumpIf (fun f => f.gt || f.eq) (fun _ => rfl) rfl rfl (fun _ _ same => by simp [same rfl])
  case jlt => exact meaning_of_jumpIf (fun f => f.lt) (fun _ => rfl) rfl rfl (fun _ _ same => (same rfl).2.2)
  case jle =>
    exact meaning_of_jumpIf (fun f => f.lt || f.eq) (fun _ => rfl) rfl rfl (fun _ _ same => by simp [same rfl])
  all_goals exact .result _ _ rfl (fun _ => rfl) (by simp +contextual [ReadsOnly, Instr.reads])

/-! ## INT and IRT with and without a saved context (spec/60_exceptions.md R273, R274) -/

section Context

variable (s : State)

theorem exec_int_of_context (imm : BitVec 16) (h : s.ctx.valid = true) :
    exec (.int imm) s = .refused .intWhileContextSaved := by
  simp [exec, execInt, h]

theorem exec_int_of_no_context (imm : BitVec 16) (h : s.ctx.valid = false) :
    exec (.int imm) s = attempt (readHandler s (intCode imm)) fun handler => .next (trapEntry s handler) := by
  simp [exec, execInt, h]

theorem exec_irt_of_context (h : s.ctx.valid = true) : exec .irt s = .next (trapReturn s) := by
  simp [exec, execIrt, h]

theorem exec_irt_of_no_context (h : s.ctx.valid = false) : exec .irt s = .refused .irtWithoutContext := by
  simp [exec, execIrt, h]

end Context

/-! ## Refusals -/

theorem attempt_next_ne_refused {α : Type} (e : Except Fault α) (k : α → State) (q : Refusal) :
    attempt e (fun a => .next (k a)) ≠ .refused q := by
  simp [attempt_eq_refused]

/-- Only INT and IRT are refused, and only for the context. -/
theorem exec_refused {s : State} {i : Instr} {r : Refusal} (h : exec i s = .refused r) :
    r = .intWhileContextSaved ∧ s.ctx.valid = true ∨ r = .irtWithoutContext ∧ s.ctx.valid = false := by
  cases meaning_of i with
  | result _ _ _ eq | immediateLoad _ _ _ eq | jump _ _ eq =>
    rw [eq] at h
    cases execute_eq_refused _ _ _ _ _ h
  | load _ _ _ _ _ eq | store _ _ _ eq =>
    rw [eq] at h
    exact absurd (execute_eq_refused _ _ _ _ _ h) (attempt_next_ne_refused _ _ r)
  | compare => cases execute_eq_refused _ _ _ _ _ h
  | nop | hlt => cases h
  | illegal isMeta => simp [exec_of_isMeta isMeta] at h
  | int imm =>
    cases valid : s.ctx.valid
    case true =>
      rw [exec_int_of_context s imm valid] at h
      exact .inl ⟨(Host.Outcome.refused.inj h).symm, rfl⟩
    case false =>
      rw [exec_int_of_no_context s imm valid] at h
      exact absurd h (attempt_next_ne_refused _ _ r)
  | irt =>
    cases valid : s.ctx.valid
    case true =>
      rw [exec_irt_of_context s valid] at h
      cases h
    case false =>
      rw [exec_irt_of_no_context s valid] at h
      exact .inr ⟨(Host.Outcome.refused.inj h).symm, rfl⟩

end Sys2Proof.Machine

namespace Sys2Proof.Proofs

open Sys2Proof.Machine

/-- Settles O49: a refused step is a refused instruction, and no other form of an instruction is refused. -/
theorem refusalsOnlyForContext : Obligations.RefusalsOnlyForContext := by
  unfold Obligations.RefusalsOnlyForContext
  refine ⟨exec_int_of_context, exec_irt_of_no_context, fun s r h => ?_⟩
  obtain ⟨i, refused⟩ := step_refused h
  exact exec_refused refused

end Sys2Proof.Proofs
end

section
/-!
PROOFS. Two runs of one instruction with different flags (spec/10_state.md R47): form by form, the outcomes differ in
the flags of the next state at most.
-/

namespace Sys2Proof.Machine


/-- The second outcome is the first, but for the flags of its next state. -/
def SameButFlags : Result → Result → Prop
  | .next t, r => ∃ t', r = .next t' ∧ { t' with flags := t.flags } = t
  | .fault e, r => r = .fault e
  | .refused q, r => r = .refused q

theorem sameButFlags_next {t u : State} (h : { u with flags := t.flags } = t) : SameButFlags (.next t) (.next u) :=
  ⟨u, rfl, h⟩

section Flags

variable (s : State) (f : Flags)

theorem regRead_flags (r : Reg) : regRead { s with flags := f } r = regRead s r := by
  cases r <;> rfl

theorem regWrite_flags_comm (r : Reg) (v : Word) :
    regWrite { s with flags := f } r v = { regWrite s r v with flags := f } := by
  cases r <;> rfl

theorem sameButFlags_regWrite (dst : Reg) (v : Word) :
    SameButFlags (.next (regWrite s dst v).advance) (.next (regWrite { s with flags := f } dst v).advance) :=
  sameButFlags_next (by rw [regWrite_flags_comm]; rfl)

/-- The register checks read no flag. -/
theorem sameButFlags_execute (i : Instr) (uses : List Use) {r r' : Result} (h : SameButFlags r r') :
    SameButFlags (execute i uses s r) (execute i uses { s with flags := f } r') := by
  have check : checkUses { s with flags := f } (encode i) uses = checkUses s (encode i) uses := rfl
  simp only [execute, check]
  split
  · rfl
  · exact h

theorem sameButFlags_finishResult (dst : Reg) (v : Word) :
    SameButFlags (finishResult dst v s) (finishResult dst v { s with flags := f }) :=
  sameButFlags_next (by rw [regWrite_flags_comm]; rfl)

/-- Whether an access is permitted depends on no flag: the default `MemPermit`. -/
theorem sameButFlags_memRead (addr : Word) (sz : Size) {k k' : Word → Result} (h : ∀ v, SameButFlags (k v) (k' v)) :
    SameButFlags (attempt (memRead s addr sz) k) (attempt (memRead { s with flags := f } addr sz) k') := by
  have same : memRead { s with flags := f } addr sz = memRead s addr sz := rfl
  rw [same]
  cases memRead s addr sz with
  | ok v => exact h v
  | error e => rfl

theorem sameButFlags_memWrite (addr v : Word) (sz : Size) :
    SameButFlags (attempt (memWrite s addr sz v) fun t => .next t.advance)
      (attempt (memWrite { s with flags := f } addr sz v) fun t => .next t.advance) := by
  simp only [memWrite_eq]
  show SameButFlags _ (attempt (if aligned addr sz then if memPermit s .write addr sz then _ else _ else _) _)
  split_ifs
  · exact sameButFlags_next rfl
  · rfl
  · rfl

/-- With other flags, of which a conditional jump may test none that differs, the outcome is the same but for the
flags. -/
theorem sameButFlags_exec (i : Instr)
    (h : i.isConditionalJump = true → f.eq = s.flags.eq ∧ f.gt = s.flags.gt ∧ f.lt = s.flags.lt) :
    SameButFlags (exec i s) (exec i { s with flags := f }) := by
  have same {value : State → Word} (reads : ReadsOnly i value) : value { s with flags := f } = value s :=
    reads _ _ fun r _ => regRead_flags s f r
  cases meaning_of i with
  | result dst value _ eq reads =>
    rw [eq, eq, same reads]
    exact sameButFlags_execute s f _ _ (sameButFlags_finishResult s f dst _)
  | compare a b =>
    refine sameButFlags_execute s f _ _ ?_
    rw [regRead_flags, regRead_flags]
    exact sameButFlags_next rfl
  | load dst addr sz ext _ eq reads =>
    rw [eq, eq, same reads]
    refine sameButFlags_execute s f _ _ (sameButFlags_memRead s f _ _ fun v => ?_)
    exact sameButFlags_regWrite s f dst (ext v)
  | immediateLoad dst value _ eq reads =>
    rw [eq, eq, same reads]
    exact sameButFlags_execute s f _ _ (sameButFlags_regWrite s f dst _)
  | store addr value sz eq readsAddr readsValue =>
    rw [eq, eq, same readsAddr, same readsValue]
    exact sameButFlags_execute s f _ _ (sameButFlags_memWrite s f _ _ _)
  | jump cond target eq reads tests =>
    rw [eq, eq, same reads, tests s.flags f h]
    refine sameButFlags_execute s f _ _ (sameButFlags_next ?_)
    split <;> rfl
  | nop | hlt => exact sameButFlags_next rfl
  | int imm =>
    cases valid : s.ctx.valid
    case true =>
      rw [exec_int_of_context s imm valid, exec_int_of_context { s with flags := f } imm valid]
      rfl
    case false =>
      rw [exec_int_of_no_context s imm valid, exec_int_of_no_context { s with flags := f } imm valid]
      exact sameButFlags_memRead { s with mode := .kernel } f _ _ fun _ => sameButFlags_next rfl
  | irt =>
    cases valid : s.ctx.valid
    case true =>
      rw [exec_irt_of_context s valid, exec_irt_of_context { s with flags := f } valid]
      exact sameButFlags_next rfl
    case false =>
      rw [exec_irt_of_no_context s valid, exec_irt_of_no_context { s with flags := f } valid]
      rfl
  | illegal isMeta =>
    rw [exec_of_isMeta isMeta, exec_of_isMeta isMeta]
    rfl

end Flags

end Sys2Proof.Machine

namespace Sys2Proof.Proofs

open Sys2Proof.Machine

/-- Settles O44: form by form, with the flags a conditional jump may test. -/
theorem flagsReadOnlyByConditionalJumps : Obligations.FlagsReadOnlyByConditionalJumps := by
  unfold Obligations.FlagsReadOnlyByConditionalJumps
  intro i s f h
  have same := sameButFlags_exec s f i h
  cases outcome : exec i s <;> rw [outcome] at same <;> exact same

end Sys2Proof.Proofs
end

section
/-!
PROOFS. Two runs of one instruction in User mode with different values in `idr` and `mmr` (spec/60_exceptions.md
R277): no operand that passes its check names either, so form by form the outcome is the same but for these values.
-/

namespace Sys2Proof.Machine

/-- `f` applied to the next state, if there is one. -/
def mapNext (f : State → State) : Result → Result
  | .next t => .next (f t)
  | .fault e => .fault e
  | .refused q => .refused q

/-- The state with other values in `idr` and `mmr`. -/
def State.withPrivileged (s : State) (p q : Word) : State := (s.setX 0x14 p).setX 0x15 q

section Privileged

variable (s : State) (p q : Word)

theorem State.setX_comm {i j : Fin 22} (v w : Word) (h : i ≠ j) : (s.setX i v).setX j w = (s.setX j w).setX i v := by
  have values : (s.x.set i v).set j w = (s.x.set j w).set i v := Vector.set_comm v w (Fin.val_ne_of_ne h)
  simp only [State.setX, values]

theorem State.setX_withPrivileged {j : Fin 22} (v : Word) (h : privileged (.stored j) = false) :
    (s.withPrivileged p q).setX j v = (s.setX j v).withPrivileged p q := by
  obtain ⟨notIdr, notMmr⟩ : j ≠ 0x14 ∧ j ≠ 0x15 := by simpa [privileged] using h
  rw [State.withPrivileged, State.withPrivileged, State.setX_comm _ _ _ notMmr.symm, State.setX_comm s _ _ notIdr.symm]

theorem State.getX_withPrivileged {j : Fin 22} (h : privileged (.stored j) = false) :
    (s.withPrivileged p q).getX j = s.getX j := by
  obtain ⟨notIdr, notMmr⟩ : j ≠ 0x14 ∧ j ≠ 0x15 := by simpa [privileged] using h
  rw [State.withPrivileged, State.getX_setX_ne _ _ notMmr, State.getX_setX_ne _ _ notIdr]

theorem regRead_withPrivileged {r : Reg} (h : privileged r = false) :
    regRead (s.withPrivileged p q) r = regRead s r := by
  cases r with
  | stored j => exact s.getX_withPrivileged p q h
  | _ => rfl

theorem regWrite_withPrivileged {r : Reg} (v : Word) (h : privileged r = false) :
    regWrite (s.withPrivileged p q) r v = (regWrite s r v).withPrivileged p q := by
  cases r with
  | stored j => exact s.setX_withPrivileged p q v h
  | _ => rfl

theorem trapReturn_withPrivileged : trapReturn (s.withPrivileged p q) = (trapReturn s).withPrivileged p q := by
  have ret : (s.withPrivileged p q).getX retIndex = s.getX retIndex := s.getX_withPrivileged p q (by decide)
  have bpr : (s.withPrivileged p q).setX bprIndex s.ctx.bpr = (s.setX bprIndex s.ctx.bpr).withPrivileged p q :=
    s.setX_withPrivileged p q s.ctx.bpr (by decide)
  have ctx : (s.withPrivileged p q).ctx = s.ctx := rfl
  rw [trapReturn, ret, ctx, bpr]
  rfl

variable {s}

/-- The register checks depend on neither value, and what passes them is not privileged. -/
theorem execute_withPrivileged (user : s.mode = .user) (i : Instr) {r r' : Result}
    (h : (∀ x, i.Uses x → privileged x = false) → r' = mapNext (State.withPrivileged · p q) r) :
    execute i (useList i) (s.withPrivileged p q) r' =
      mapNext (State.withPrivileged · p q) (execute i (useList i) s r) := by
  have check : checkUses (s.withPrivileged p q) (encode i) (useList i) = checkUses s (encode i) (useList i) := rfl
  simp only [execute, check]
  cases passed : checkUses s (encode i) (useList i) with
  | some f => rfl
  | none =>
    refine h fun x used => ?_
    obtain ⟨u, hu, rfl⟩ := (uses_iff i x).1 used
    have ok := (use_ok_iff s u).1 ((checkUses_eq_none _ _ _).1 passed u hu)
    cases u with
    | read x => exact not_privileged_of_readable user ok
    | write x => exact not_privileged_of_readable user (readable_of_writable ok)

/-- Whether an access is permitted does not depend on `mmr`: the default `MemPermit`. -/
theorem memRead_withPrivileged (addr : Word) (sz : Size) (k : Word → State) (k' : Word → State)
    (h : ∀ v, k' v = (k v).withPrivileged p q) :
    attempt (memRead (s.withPrivileged p q) addr sz) (fun v => .next (k' v)) =
      mapNext (State.withPrivileged · p q) (attempt (memRead s addr sz) fun v => .next (k v)) := by
  have same : memRead (s.withPrivileged p q) addr sz = memRead s addr sz := rfl
  rw [same]
  cases memRead s addr sz with
  | ok v => exact congrArg Host.Outcome.next (h v)
  | error e => rfl

theorem memWrite_withPrivileged (addr v : Word) (sz : Size) :
    attempt (memWrite (s.withPrivileged p q) addr sz v) (fun t => .next t.advance) =
      mapNext (State.withPrivileged · p q) (attempt (memWrite s addr sz v) fun t => .next t.advance) := by
  simp only [memWrite_eq]
  show attempt (if aligned addr sz then if memPermit s .write addr sz then _ else _ else _) _ = _
  split_ifs <;> rfl

/-- In User mode an instruction other than INT commutes with a change of `idr` and `mmr`. -/
theorem exec_withPrivileged (user : s.mode = .user) (i : Instr) (notInt : i.isInt = false) :
    exec i (s.withPrivileged p q) = mapNext (State.withPrivileged · p q) (exec i s) := by
  have same {value : State → Word} (reads : ReadsOnly i value) (checked : ∀ x, i.Uses x → privileged x = false) :
      value (s.withPrivileged p q) = value s :=
    reads _ _ fun r hr => regRead_withPrivileged s p q (checked r (.inl hr))
  cases meaning_of i with
  | result dst value writes eq reads =>
    rw [eq, eq]
    refine execute_withPrivileged p q user i fun checked => ?_
    rw [same reads checked, finishResult, regWrite_withPrivileged s p q _ (checked dst (.inr writes))]
    rfl
  | compare a b =>
    refine execute_withPrivileged p q user (.cmp a b) fun checked => ?_
    rw [regRead_withPrivileged s p q (checked a (.inl (by simp [Instr.reads]))),
      regRead_withPrivileged s p q (checked b (.inl (by simp [Instr.reads])))]
    rfl
  | load dst addr sz ext writes eq reads =>
    rw [eq, eq]
    refine execute_withPrivileged p q user i fun checked => ?_
    rw [same reads checked]
    refine memRead_withPrivileged p q _ _ _ _ fun v => ?_
    rw [regWrite_withPrivileged s p q _ (checked dst (.inr writes))]
    rfl
  | immediateLoad dst value writes eq reads =>
    rw [eq, eq]
    refine execute_withPrivileged p q user i fun checked => ?_
    rw [same reads checked, regWrite_withPrivileged s p q _ (checked dst (.inr writes))]
    rfl
  | store addr value sz eq readsAddr readsValue =>
    rw [eq, eq]
    refine execute_withPrivileged p q user i fun checked => ?_
    rw [same readsAddr checked, same readsValue checked]
    exact memWrite_withPrivileged p q _ _ _
  | jump cond target eq reads =>
    rw [eq, eq]
    refine execute_withPrivileged p q user i fun checked => ?_
    rw [same reads checked]
    show Host.Outcome.next (if cond s.flags then _ else _) = mapNext _ (.next (if cond s.flags then _ else _))
    split <;> rfl
  | nop | hlt => rfl
  | int imm => simp [Instr.isInt] at notInt
  | irt =>
    cases valid : s.ctx.valid
    case true =>
      rw [exec_irt_of_context s valid, exec_irt_of_context (s.withPrivileged p q) valid, trapReturn_withPrivileged]
      rfl
    case false =>
      rw [exec_irt_of_no_context s valid, exec_irt_of_no_context (s.withPrivileged p q) valid]
      rfl
  | illegal isMeta =>
    rw [exec_of_isMeta isMeta, exec_of_isMeta isMeta]
    rfl

end Privileged

end Sys2Proof.Machine

namespace Sys2Proof.Proofs

open Sys2Proof.Machine

/-- Settles O56: form by form, every operand that passes its check being one that reads and writes neither register. -/
theorem userCannotSeePrivilegedRegisters : Obligations.UserCannotSeePrivilegedRegisters := by
  unfold Obligations.UserCannotSeePrivilegedRegisters
  intro i s p q user notInt
  have same := exec_withPrivileged p q user i notInt
  cases outcome : exec i s <;> rw [outcome] at same <;> exact same

end Sys2Proof.Proofs
end

section
/-!
PROOFS. Register operands (spec/10_state.md R20 to R35): which reads and writes pass their checks, the two exceptions
of the register checks and their order, and every fault an instruction can raise.
-/

namespace Sys2Proof.Machine

/-! ## Which accesses pass -/

theorem readProtected_iff (s : State) (r : Reg) :
    readProtected s r = true ↔ s.mode = .user ∧ (r = .idr ∨ r = .mmr) := by
  simp [readProtected, privileged_iff]

theorem readable_eq_false_iff (s : State) (r : Reg) :
    readable s r = false ↔ r.Illegal ∨ s.mode = .user ∧ (r = .idr ∨ r = .mmr) := by
  rw [← Bool.not_eq_true, readable_iff, not_and_or, Bool.not_eq_false, Bool.not_eq_false, illegalOperand_iff,
    readProtected_iff]

theorem writeProtected_iff (s : State) (r : Reg) :
    writeProtected s r = true ↔ r = .pcx ∨ s.mode = .user ∧ (r = .idr ∨ r = .mmr) := by
  simp [writeProtected, readProtected_iff, or_comm]

theorem writable_eq_false_iff (s : State) (r : Reg) :
    writable s r = false ↔ r.Illegal ∨ r = .pcx ∨ s.mode = .user ∧ (r = .idr ∨ r = .mmr) := by
  rw [← Bool.not_eq_true, writable_iff, not_and_or, Bool.not_eq_false, Bool.not_eq_false, illegalOperand_iff,
    writeProtected_iff]

theorem readable_zero (s : State) : readable s .zero = true := by
  simp [readable, illegalOperand, readProtected, privileged]

theorem writable_zero (s : State) : writable s .zero = true := by
  simp [writable, illegalOperand, writeProtected, readProtected, privileged]

/-! ## The exceptions of the register checks (R35) -/

section Checks

variable {s : State} {i : Instr}

theorem checkUses_of_illegal {r : Reg} (used : i.Uses r) (illegal : r.Illegal) (w : Word) :
    checkUses s w (useList i) = some (.illegalInstruction s.pc w) := by
  obtain ⟨u, hu, rfl⟩ := (uses_iff i r).1 used
  have found : (useList i).any (fun u => illegalOperand u.reg) = true :=
    List.any_eq_true.2 ⟨u, hu, (illegalOperand_iff u.reg).2 illegal⟩
  simp [checkUses, found]

theorem legal_uses_iff : (∀ u ∈ useList i, illegalOperand u.reg = false) ↔ ∀ r, i.Uses r → ¬ r.Illegal := by
  simp only [uses_iff, ← illegalOperand_iff, Bool.not_eq_true]
  exact ⟨fun legal r ⟨u, hu, reg⟩ => reg ▸ legal u hu, fun legal u hu => legal u.reg ⟨u, hu, rfl⟩⟩

theorem use_protected_iff (u : Use) :
    u.protected s = true ↔ u = .write .pcx ∨ s.mode = .user ∧ (u.reg = .idr ∨ u.reg = .mmr) := by
  cases u <;> simp [Use.protected, Use.reg, readProtected_iff, writeProtected_iff]

theorem write_mem_useList (r : Reg) : Use.write r ∈ useList i ↔ i.writes = some r := by
  simp [mem_uses]

/-- Some use is protected exactly when the instruction writes `pcx`, or uses `idr` or `mmr` in User mode. -/
theorem exists_protected_use_iff :
    (∃ u ∈ useList i, u.protected s = true) ↔
      i.writes = some .pcx ∨ s.mode = .user ∧ (i.Uses .idr ∨ i.Uses .mmr) := by
  simp only [use_protected_iff, ← write_mem_useList, uses_iff]
  constructor
  · rintro ⟨u, hu, rfl | ⟨user, idr | mmr⟩⟩
    · exact .inl hu
    · exact .inr ⟨user, .inl ⟨u, hu, idr⟩⟩
    · exact .inr ⟨user, .inr ⟨u, hu, mmr⟩⟩
  · rintro (pcx | ⟨user, ⟨u, hu, idr⟩ | ⟨u, hu, mmr⟩⟩)
    · exact ⟨_, pcx, .inl rfl⟩
    · exact ⟨u, hu, .inr ⟨user, .inl idr⟩⟩
    · exact ⟨u, hu, .inr ⟨user, .inr mmr⟩⟩

theorem checkUses_of_protected (legal : ∀ u ∈ useList i, illegalOperand u.reg = false)
    (h : ∃ u ∈ useList i, u.protected s = true) (w : Word) :
    ∃ x, checkUses s w (useList i) = some (.protectionFault s.pc x) := by
  obtain ⟨u, hu, isProtected⟩ := h
  cases check : checkUses s w (useList i) with
  | none => simp [((checkUses_eq_none _ _ _).1 check u hu).2] at isProtected
  | some f =>
    obtain ⟨⟨v, hv, illegal⟩, -⟩ | ⟨-, v, -, -, rfl⟩ := checkUses_eq_some _ _ _ _ check
    · simp [legal v hv] at illegal
    · exact ⟨_, rfl⟩

/-! ## The faults of an instruction -/

theorem isMeta_eq_false_of_uses {r : Reg} (h : i.Uses r) : i.isMeta = false := by
  cases i
  case segment | data => simp [Instr.Uses, Instr.reads, Instr.writes] at h
  all_goals rfl

theorem exec_of_check {f : Fault} (hm : i.isMeta = false) (h : checkUses s (encode i) (useList i) = some f) :
    exec i s = .fault f := by
  obtain ⟨r, eq, -⟩ := exec_eq_execute i s hm
  simp [eq, execute, h, raise]

/-- Everything an instruction that faults can have met, in the order of the checks (decision D7). -/
theorem exec_fault {f : Fault} (h : exec i s = .fault f) :
    i.isMeta = true ∧ f = .illegalInstruction s.pc (encode i) ∨
    checkUses s (encode i) (useList i) = some f ∨
    ∃ a, f = .alignmentFault s.pc a ∨ f = .memoryAccessViolation s.pc a := by
  cases hm : i.isMeta with
  | true =>
    rw [exec_of_isMeta hm] at h
    exact .inl ⟨rfl, (Host.Outcome.fault.inj h).symm⟩
  | false =>
    obtain ⟨r, eq, access⟩ := exec_eq_execute i s hm
    obtain check | ⟨-, body⟩ := execute_eq_fault i _ s r f (eq ▸ h)
    · exact .inr (.inl check)
    · exact .inr (.inr (access f body))

theorem exec_of_illegal_use {r : Reg} (used : i.Uses r) (illegal : r.Illegal) :
    exec i s = .fault (.illegalInstruction s.pc (encode i)) :=
  exec_of_check (isMeta_eq_false_of_uses used) (checkUses_of_illegal used illegal _)

theorem exec_protectionFault {c : Word} {x : BitVec 5} (h : exec i s = .fault (.protectionFault c x)) :
    (∀ u ∈ useList i, illegalOperand u.reg = false) ∧
      ∃ u ∈ useList i, u.protected s = true ∧ c = s.pc ∧ x = u.reg.toBits := by
  obtain ⟨-, other⟩ | check | ⟨a, other | other⟩ := exec_fault h
  · cases other
  · obtain ⟨-, other⟩ | ⟨legal, u, hu, isProtected, record⟩ := checkUses_eq_some _ _ _ _ check
    · cases other
    · cases record
      exact ⟨legal, u, hu, isProtected, rfl, rfl⟩
  · cases other
  · cases other

theorem exec_protectionFault_iff :
    (∃ c x, exec i s = .fault (.protectionFault c x)) ↔
      (∀ u ∈ useList i, illegalOperand u.reg = false) ∧ ∃ u ∈ useList i, u.protected s = true := by
  constructor
  · rintro ⟨c, x, h⟩
    obtain ⟨legal, u, hu, isProtected, -⟩ := exec_protectionFault h
    exact ⟨legal, u, hu, isProtected⟩
  · rintro ⟨legal, u, hu, isProtected⟩
    obtain ⟨x, check⟩ := checkUses_of_protected legal ⟨u, hu, isProtected⟩ (encode i)
    have hm : i.isMeta = false := isMeta_eq_false_of_uses ((uses_iff i u.reg).2 ⟨u, hu, rfl⟩)
    exact ⟨s.pc, x, exec_of_check hm check⟩

/-- The index a Protection Fault records. -/
theorem protected_index {u : Use} (hu : u ∈ useList i) (h : u.protected s = true) :
    u.reg.toBits = 0x1C ∧ i.writes = some .pcx ∨ u.reg.toBits = 0x14 ∧ s.mode = .user ∧ i.Uses .idr ∨
      u.reg.toBits = 0x15 ∧ s.mode = .user ∧ i.Uses .mmr := by
  have used : i.Uses u.reg := (uses_iff i u.reg).2 ⟨u, hu, rfl⟩
  obtain rfl | ⟨user, idr | mmr⟩ := (use_protected_iff u).1 h
  · exact .inl ⟨rfl, (write_mem_useList .pcx).1 hu⟩
  · rw [idr] at used ⊢
    exact .inr (.inl ⟨rfl, user, used⟩)
  · rw [mmr] at used ⊢
    exact .inr (.inr ⟨rfl, user, used⟩)

/-- Every exception of an instruction records the address of the instruction. -/
theorem exec_fault_cur {f : Fault} (h : exec i s = .fault f) : f.cur = some s.pc := by
  obtain ⟨-, rfl⟩ | check | ⟨a, rfl | rfl⟩ := exec_fault h
  · rfl
  · obtain ⟨-, rfl⟩ | ⟨-, u, -, -, rfl⟩ := checkUses_eq_some _ _ _ _ check <;> rfl
  · rfl
  · rfl

end Checks

/-! ## A destination of `zero` (R26) -/

theorem Effect.keepsRegisters_of_writes_zero {s t : State} {i : Instr} (h : Effect s i t) (hz : i.writes = some .zero) :
    KeepsRegisters s t := by
  intro j
  cases h with
  | result _ dst v _ writes | load _ dst v _ _ writes =>
    obtain rfl : dst = .zero := Option.some.inj (writes.symm.trans hz)
    rfl
  | int | irt => cases hz
  | _ => rfl

/-- A load whose register checks pass and whose access raises an exception raises it. -/
theorem loadWith_of_error {s : State} {base dst : Reg} {off : BitVec 16} {sz : Size} {f : Fault} (i : Instr)
    (ext : Word → Word) (hb : readable s base = true) (hd : writable s dst = true)
    (h : memRead s (effAddr s base off) sz = .error f) : loadWith i base dst off sz ext s = .fault f := by
  rw [loadWith, execute_of_ok _ _ _ _ (by simp [hb, hd]), h]
  rfl

/-! ## Jumps -/

/-- Where a completed jump goes. -/
theorem jumpIf_next_pc {s t : State} {i : Instr} {cond : Bool} {base : Reg} {off : BitVec 16} {P : Prop} [Decidable P]
    (h : jumpIf i cond base off s = .next t) (hP : cond = true ↔ P) :
    t.pc = if P then regRead s base + sext16 off else s.pc + 4 := by
  obtain ⟨-, next⟩ := (execute_eq_next ..).1 h
  rw [← Host.Outcome.next.inj next]
  simp only [hP]
  split <;> rfl

end Sys2Proof.Machine

namespace Sys2Proof.Proofs

open Sys2Proof.Machine

/-- Settles O20: the law of the read checks. -/
theorem operandReadRule : Obligations.OperandReadRule :=
  fun s => ⟨fun _ => rfl, rfl, rfl, readable_eq_false_iff s⟩

/-- Settles O21: the law of the register file and of the write checks. -/
theorem operandWriteRule : Obligations.OperandWriteRule := by
  unfold Obligations.OperandWriteRule
  refine fun s => ⟨fun i v => ⟨?_, fun j hj => ?_, rfl⟩, fun _ => rfl, writable_eq_false_iff s⟩
  · exact s.getX_setX_self i v
  · exact s.getX_setX_ne v hj

/-- Settles O22: a write to `zero` is no write, and what comes before and after it in ADD and the loads still happens.
-/
theorem zeroRegister : Obligations.ZeroRegister := by
  unfold Obligations.ZeroRegister
  refine ⟨fun s => ⟨readable_zero s, writable_zero s, rfl⟩, ?discarded, ?add, ?loads⟩
  case discarded => exact fun i s t hz h => (exec_next_effect h).keepsRegisters_of_writes_zero hz
  case add =>
    intro s a b ha hb
    exact ⟨_, execute_of_ok _ _ _ _ (by simp [ha, hb, writable_zero]), rfl⟩
  case loads =>
    intro s base off f hb
    refine ⟨fun h => ⟨?_, ?_⟩, fun h => ⟨?_, ?_⟩, fun h => ?_⟩ <;> exact loadWith_of_error _ _ hb (writable_zero s) h

/-- Settles O24: the Illegal Instruction cases are the first check. -/
theorem illegalOperandFaults : Obligations.IllegalOperandFaults :=
  fun _ _ _ => exec_of_illegal_use

/-- Settles O23: a protected use among legal ones, and the index it names. -/
theorem protectionFaultRule : Obligations.ProtectionFaultRule := by
  unfold Obligations.ProtectionFaultRule
  intro i s
  refine ⟨?raised, ?record, fun used => exec_of_illegal_use used (.inl rfl), writable_zero s⟩
  case raised => rw [exec_protectionFault_iff, legal_uses_iff, exists_protected_use_iff]
  case record =>
    intro c x h
    obtain ⟨-, u, hu, isProtected, rfl, rfl⟩ := exec_protectionFault h
    exact ⟨rfl, protected_index hu isProtected⟩

/-- Settles O10: the frame of `pc` for the sequential instructions, the jump rule, and the faults. -/
theorem nextPcRule : Obligations.NextPcRule := by
  unfold Obligations.NextPcRule
  intro s t
  refine ⟨?sequential, ?jumps, ?int, ?irt, ?hlt, fun i f => exec_fault_cur⟩
  case sequential => exact fun i notJump notInt notIrt h => (exec_next_effect h).pc_of_sequential notJump notInt notIrt
  case jumps =>
    refine fun base off => ⟨fun h => ?_, fun h => ?_, fun h => ?_, fun h => ?_, fun h => ?_, fun h => ?_, fun h => ?_⟩
    · exact jumpIf_next_pc h (iff_of_true rfl trivial)
    all_goals exact jumpIf_next_pc h (by simp)
  case int =>
    intro imm h
    obtain ⟨-, handler, read, rfl⟩ := (exec_int_eq_next imm s t).1 h
    exact read
  case irt =>
    intro h
    obtain ⟨-, rfl⟩ := (exec_irt_eq_next s t).1 h
    rfl
  case hlt =>
    intro h
    exact ⟨(exec_next_effect h).pc_of_sequential rfl rfl (by decide), halted_of_exec_hlt h⟩

end Sys2Proof.Proofs
end

section
/-!
PROOFS. What the instructions that write a register complete with (spec/40_data_movement.md, 42_immediate_load.md,
45_arithmetic.md to 47_shift.md): one lemma for the shared end of each kind, with its whole frame, and the value of each
instruction.
-/

namespace Sys2Proof.Machine

/-! ## Instructions whose register checks pass -/

/-- A use passes its check. -/
def Use.Passes (s : State) : Use → Prop
  | .read r => readable s r = true
  | .write r => writable s r = true

@[simp] theorem passes_read (s : State) (r : Reg) : (Use.read r).Passes s ↔ readable s r = true := Iff.rfl

@[simp] theorem passes_write (s : State) (r : Reg) : (Use.write r).Passes s ↔ writable s r = true := Iff.rfl

theorem execute_of_passes {uses : List Use} {s : State} (h : ∀ u ∈ uses, u.Passes s) (i : Instr) (r : Result) :
    execute i uses s r = r :=
  execute_of_ok i uses s r fun u hu => by cases u <;> exact h _ hu

section Completion

variable {uses : List Use} {s : State} (h : ∀ u ∈ uses, u.Passes s)

theorem completesWithResult_finish (s : State) (dst : Reg) (v : Word) :
    CompletesWithResult s (setResultFlags (regWrite s dst v) v).advance dst v :=
  ⟨regWrite_getX s dst v, by simp, by simp, fun _ => by simp, by simp [KeepsSystem]⟩

theorem completesWithLoad_regWrite (s : State) (dst : Reg) (v : Word) :
    CompletesWithLoad s (regWrite s dst v).advance dst v :=
  ⟨regWrite_getX s dst v, by simp, by simp, fun _ => by simp, by simp [KeepsSystem]⟩

include h

/-- The shared end of arithmetic, logic, shifts, MOV and MOVS. -/
theorem execute_completesWithResult (i : Instr) (dst : Reg) (v : Word) :
    ∃ t, execute i uses s (finishResult dst v s) = .next t ∧ CompletesWithResult s t dst v :=
  ⟨_, execute_of_passes h i _, completesWithResult_finish s dst v⟩

/-- The shared end of LLI and LUI. -/
theorem execute_completesWithLoad (i : Instr) (dst : Reg) (v : Word) :
    ∃ t, execute i uses s (.next (regWrite s dst v).advance) = .next t ∧ CompletesWithLoad s t dst v :=
  ⟨_, execute_of_passes h i _, completesWithLoad_regWrite s dst v⟩

end Completion

/-! ## Values -/

/-- A left shift is a product modulo 2^32 (spec/47_shift.md R226). -/
theorem shiftLeft_eq_ofNat_mul (v : Word) (n : Nat) : v <<< n = BitVec.ofNat 32 (v.toNat * 2 ^ n) := by
  apply BitVec.eq_of_toNat_eq
  rw [BitVec.toNat_shiftLeft, BitVec.toNat_ofNat, Nat.shiftLeft_eq]

/-- A right shift is a quotient (spec/47_shift.md R227). -/
theorem ushiftRight_eq_ofNat_div (v : Word) (n : Nat) : v >>> n = BitVec.ofNat 32 (v.toNat / 2 ^ n) := by
  apply BitVec.eq_of_toNat_eq
  have small : v.toNat / 2 ^ n < 2 ^ 32 := Nat.lt_of_le_of_lt (Nat.div_le_self _ _) v.isLt
  rw [BitVec.toNat_ushiftRight, BitVec.toNat_ofNat, Nat.shiftRight_eq_div_pow, Nat.mod_eq_of_lt small]

/-- The count of a register shift is the count register modulo 32 (spec/47_shift.md R225). -/
theorem shiftCount_eq_mod (v : Word) : (v.setWidth 5).toNat = v.toNat % 32 :=
  BitVec.toNat_setWidth 5 v

/-- The low half of a word, the model's way and as bits 15 to 0. -/
theorem setWidth_eq_lowHalf (v : Word) : v.setWidth 16 = v.extractLsb' 0 16 := by
  apply BitVec.eq_of_toNat_eq
  simp

theorem lowHalf_zext16 (v : BitVec 16) : (zext16 v).extractLsb' 0 16 = v := by
  rw [zext16, BitVec.extractLsb'_setWidth_of_le (by decide), BitVec.extractLsb'_eq_self]

/-- Whether a write passes its check depends on the mode alone. -/
theorem writable_congr {s t : State} (h : t.mode = s.mode) (r : Reg) : writable t r = writable s r := by
  simp [writable, writeProtected, readProtected, h]

end Sys2Proof.Machine

namespace Sys2Proof.Proofs

open Sys2Proof.Machine

/-- Settles O26: the checks pass, and then the shared end with the value moved. -/
theorem moveResults : Obligations.MoveResults := by
  unfold Obligations.MoveResults
  intro s src dst hs hd
  have passes : ∀ u ∈ [Use.read src, .write dst], u.Passes s := by simp [hs, hd]
  exact ⟨execute_completesWithResult passes _ _ _, execute_completesWithResult passes _ _ _⟩

/-- Settles O27: the shared end with the sum and the difference. -/
theorem addSubResults : Obligations.AddSubResults := by
  unfold Obligations.AddSubResults
  intro s a b dst ha hb hd
  have passes : ∀ u ∈ [Use.read a, .read b, .write dst], u.Passes s := by simp [ha, hb, hd]
  exact ⟨execute_completesWithResult passes _ _ _, execute_completesWithResult passes _ _ _⟩

/-- Settles O28: a writable register is readable, and then the shared end. -/
theorem incDecResults : Obligations.IncDecResults := by
  unfold Obligations.IncDecResults
  intro s reg hw
  have passes : ∀ u ∈ [Use.read reg, .write reg], u.Passes s := by simp [hw, readable_of_writable hw]
  exact ⟨execute_completesWithResult passes _ _ _, execute_completesWithResult passes _ _ _⟩

/-- Settles O29: the shared end with the extended literal. -/
theorem immediateArithmeticResults : Obligations.ImmediateArithmeticResults := by
  unfold Obligations.ImmediateArithmeticResults
  intro s src dst lit hs hd
  have passes : ∀ u ∈ [Use.read src, .write dst], u.Passes s := by simp [hs, hd]
  exact ⟨execute_completesWithResult passes _ _ _, execute_completesWithResult passes _ _ _⟩

/-- Settles O30: the shared end with each bitwise result. -/
theorem logicalResults : Obligations.LogicalResults := by
  unfold Obligations.LogicalResults
  intro s a b dst ha hd
  have passesNot : ∀ u ∈ [Use.read a, .write dst], u.Passes s := by simp [ha, hd]
  refine ⟨execute_completesWithResult passesNot _ _ _, fun hb => ?_⟩
  have passes : ∀ u ∈ [Use.read a, .read b, .write dst], u.Passes s := by simp [ha, hb, hd]
  refine ⟨?and, ?or, ?xor, ?nand, ?nor, ?xnor⟩ <;> exact execute_completesWithResult passes _ _ _

/-- Settles O31: shifts as a product and a quotient. -/
theorem literalShiftResults : Obligations.LiteralShiftResults := by
  unfold Obligations.LiteralShiftResults
  intro s reg count hw
  have passes : ∀ u ∈ [Use.read reg, .write reg], u.Passes s := by simp [hw, readable_of_writable hw]
  rw [← shiftLeft_eq_ofNat_mul, ← ushiftRight_eq_ofNat_div]
  exact ⟨execute_completesWithResult passes _ _ _, execute_completesWithResult passes _ _ _⟩

/-- Settles O32: as O31, with the count register modulo 32. -/
theorem registerShiftResults : Obligations.RegisterShiftResults := by
  unfold Obligations.RegisterShiftResults
  intro s reg count hw hc
  have passes : ∀ u ∈ [Use.read reg, .read count, .write reg], u.Passes s := by
    simp [hw, hc, readable_of_writable hw]
  rw [← shiftCount_eq_mod, ← shiftLeft_eq_ofNat_mul, ← ushiftRight_eq_ofNat_div]
  exact ⟨execute_completesWithResult passes _ _ _, execute_completesWithResult passes _ _ _⟩

/-- Settles O41: the shared end of the immediate loads. -/
theorem immediateLoadResults : Obligations.ImmediateLoadResults := by
  unfold Obligations.ImmediateLoadResults
  intro s dst value hw
  have passesLli : ∀ u ∈ [Use.write dst], u.Passes s := by simp [hw]
  have passesLui : ∀ u ∈ [Use.read dst, .write dst], u.Passes s := by simp [hw, readable_of_writable hw]
  rw [← setWidth_eq_lowHalf]
  exact ⟨execute_completesWithLoad passesLli _ _ _, execute_completesWithLoad passesLui _ _ _⟩

/-- Settles O42: O41 twice, LUI keeping the low half that LLI wrote. -/
theorem buildWordWithLliLui : Obligations.BuildWordWithLliLui := by
  unfold Obligations.BuildWordWithLliLui
  intro s i lo hi hw
  obtain ⟨⟨t, lli, regsT, -, flagsT, -, modeT, -⟩, -⟩ := immediateLoadResults s (.stored i) lo hw
  have hw' : writable t (.stored i) = true := (writable_congr modeT _).trans hw
  obtain ⟨-, u, lui, regsU, -, flagsU, -⟩ := immediateLoadResults t (.stored i) hi hw'
  refine ⟨t, u, lli, lui, ?_, fun j hj => ?_, flagsU.trans flagsT⟩
  · have low : t.getX i = zext16 lo := by simp [regsT i]
    rw [regsU i, if_pos rfl, regRead, low, lowHalf_zext16]
  · have other : Reg.stored i ≠ .stored j := by simpa using hj.symm
    rw [regsU j, if_neg other, regsT j, if_neg other]

end Sys2Proof.Proofs
end

section
/-!
PROOFS. CMP (spec/44_compare.md), the loads and stores and their exceptions (spec/41_load_store.md), and the jumps
(spec/43_jump_branch.md): one lemma per kind of instruction, used at every width and for every condition.
-/

namespace Sys2Proof.Machine

/-! ## CMP and the status word -/

theorem exec_cmp_of_readable {s : State} {a b : Reg} (ha : readable s a = true) (hb : readable s b = true) :
    exec (.cmp a b) s = .next (setCompareFlags s (regRead s a) (regRead s b)).advance :=
  execute_of_passes (by simp [ha, hb]) _ _

theorem exec_cmp_eq_next {s t : State} {a b : Reg} (h : exec (.cmp a b) s = .next t) :
    t = (setCompareFlags s (regRead s a) (regRead s b)).advance := by
  obtain ⟨-, next⟩ := (execute_eq_next ..).1 h
  exact (Host.Outcome.next.inj next).symm

theorem sts_of_flags {s : State} {f : Flags} (h : s.flags = f) : s.sts = 0#26 ++ flagBits f := by
  rw [State.sts, h]

/-- The status word of a comparison is that of its two signed values: the table after R190. -/
theorem sts_setCompareFlags (s : State) (a b : Word) :
    a = b ∧ (setCompareFlags s a b).sts = 0x35 ∨ b.toInt < a.toInt ∧ (setCompareFlags s a b).sts = 0x06 ∨
      a.toInt < b.toInt ∧ (setCompareFlags s a b).sts = 0x18 := by
  obtain less | equal | greater := lt_trichotomy a.toInt b.toInt
  · have ne : a ≠ b := fun same => absurd (congrArg BitVec.toInt same) (Int.ne_of_lt less)
    have flags : (setCompareFlags s a b).flags = ⟨false, false, false, true, true, false⟩ := by
      simp [ne, less, less.le, less.not_gt, less.not_ge]
    exact .inr (.inr ⟨less, by rw [sts_of_flags flags]; decide⟩)
  · have same : a = b := BitVec.eq_of_toInt_eq equal
    have flags : (setCompareFlags s a b).flags = ⟨true, false, true, false, true, true⟩ := by simp [same]
    exact .inl ⟨same, by rw [sts_of_flags flags]; decide⟩
  · have ne : a ≠ b := fun same => absurd (congrArg BitVec.toInt same) (Int.ne_of_gt greater)
    have flags : (setCompareFlags s a b).flags = ⟨false, true, true, false, false, false⟩ := by
      simp [ne, greater, greater.le, greater.not_gt, greater.not_ge]
    exact .inr (.inl ⟨greater, by rw [sts_of_flags flags]; decide⟩)

/-! ## Loads -/

theorem setWidth_zext8 (v : Byte) : (zext8 v).setWidth 8 = v := by
  rw [zext8, BitVec.setWidth_setWidth_of_le _ (by decide), BitVec.setWidth_eq]

theorem setWidth_zext16 (v : BitVec 16) : (zext16 v).setWidth 16 = v := by
  rw [zext16, BitVec.setWidth_setWidth_of_le _ (by decide), BitVec.setWidth_eq]

section LoadStore

variable {s : State} {base dst src : Reg} {off : BitVec 16} {sz : Size} (i : Instr) (ext : Word → Word)

/-- A load of any width from an accessible address. -/
theorem loadWith_completes (hb : readable s base = true) (hd : writable s dst = true)
    (accessible : Accessible s (effAddr s base off) sz) :
    ∃ t, loadWith i base dst off sz ext s = .next t ∧
      CompletesWithLoad s t dst (ext (s.mem.load (effAddr s base off) sz)) := by
  refine ⟨_, ?_, completesWithLoad_regWrite s dst _⟩
  rw [loadWith, execute_of_passes (by simp [hb, hd]), (memRead_eq_ok ..).2 ⟨accessible, rfl⟩]
  rfl

theorem loadWith_of_accessFault (hb : readable s base = true) (hd : writable s dst = true) {f : Fault}
    (h : accessFault s .read (effAddr s base off) sz = some f) : loadWith i base dst off sz ext s = .fault f :=
  loadWith_of_error i ext hb hd ((memRead_eq_error ..).2 h)

/-! ## Stores -/

/-- A store of any width to an accessible address. -/
theorem storeWith_completes (hs : readable s src = true) (hb : readable s base = true)
    (accessible : Accessible s (effAddr s base off) sz) :
    ∃ t, storeWith i src base off sz s = .next t ∧
      CompletesWithStore s t (effAddr s base off) (regRead s src) sz.bytes := by
  refine ⟨State.advance { s with mem := s.mem.store (effAddr s base off) (regRead s src) sz.bytes }, ?_, ?_⟩
  · rw [storeWith, execute_of_passes (by simp [hs, hb]), (memWrite_eq_ok ..).2 ⟨accessible, rfl⟩]
    rfl
  · exact ⟨fun k hk => s.mem.get_store_byte _ _ sz.bytes_le_four hk, fun a => s.mem.get_store_other _ _ _,
      fun _ => rfl, rfl, rfl, rfl, rfl, rfl, rfl⟩

theorem storeWith_of_accessFault (hs : readable s src = true) (hb : readable s base = true) {f : Fault}
    (h : accessFault s .write (effAddr s base off) sz = some f) : storeWith i src base off sz s = .fault f := by
  rw [storeWith, execute_of_passes (by simp [hs, hb]), (memWrite_eq_error ..).2 h]
  rfl

end LoadStore

/-! ## Jumps and NOP -/

theorem completesAt_pc (s : State) (pc : Word) : CompletesAt s { s with pc := pc } pc :=
  ⟨fun _ => rfl, rfl, rfl, fun _ => rfl, rfl, rfl, rfl, rfl⟩

theorem completesAt_advance (s : State) : CompletesAt s s.advance (s.pc + 4) :=
  completesAt_pc s (s.pc + 4)

/-- A jump, taken or not: `pc` alone changes. -/
theorem jumpIf_completes {s : State} {base : Reg} (i : Instr) {cond : Bool} {P : Prop} [Decidable P] (off : BitVec 16)
    (hb : readable s base = true) (hP : cond = true ↔ P) :
    ∃ t, jumpIf i cond base off s = .next t ∧
      CompletesAt s t (if P then regRead s base + sext16 off else s.pc + 4) := by
  refine ⟨_, jumpIf_of_readable i off cond hb, ?_⟩
  simp only [hP]
  split
  · exact completesAt_pc s _
  · exact completesAt_advance s

end Sys2Proof.Machine

namespace Sys2Proof.Proofs

open Sys2Proof.Machine

/-- Settles O25: NOP is the advance of `pc`. -/
theorem nopAdvances : Obligations.NopAdvances :=
  fun s => ⟨_, rfl, completesAt_advance s⟩

/-- Settles O34: the bits of the status word. -/
theorem statusRegisterLayout : Obligations.StatusRegisterLayout := by
  unfold Obligations.StatusRegisterLayout
  intro s
  obtain ⟨eq, gt, ge, lt, le, z⟩ := s.sts_bits
  exact ⟨eq, gt, ge, lt, le, z, s.sts_reserved⟩

/-- Settles O35: the six flags by their definition, and the frame. -/
theorem compareResult : Obligations.CompareResult := by
  unfold Obligations.CompareResult
  intro s a b ha hb
  have equal : (regRead s a == regRead s b) = decide (regRead s a = regRead s b) := beq_eq_decide _ _
  exact ⟨_, exec_cmp_of_readable ha hb, equal, rfl, rfl, rfl, rfl, equal, fun _ => rfl, rfl, fun _ => rfl, rfl, rfl,
    rfl, rfl⟩

/-- Settles O36: exactly one of equal, greater and less holds of two signed values. -/
theorem compareStatusWord : Obligations.CompareStatusWord := by
  unfold Obligations.CompareStatusWord
  intro s t a b h
  rw [exec_cmp_eq_next h]
  exact sts_setCompareFlags s (regRead s a) (regRead s b)

/-- Settles O37: the shared load at each width, the extension undoing the zero extension of the access. -/
theorem loadResults : Obligations.LoadResults := by
  unfold Obligations.LoadResults
  intro s base dst off hb hd
  refine ⟨fun byte => ?_, fun half => ?_, fun word => loadWith_completes _ _ hb hd word⟩
  · have value := setWidth_zext8 (s.mem.get (byteAddr (effAddr s base off) 0))
    exact ⟨value ▸ loadWith_completes _ _ hb hd byte, value ▸ loadWith_completes _ _ hb hd byte⟩
  · have value := setWidth_zext16
      (s.mem.get (byteAddr (effAddr s base off) 1) ++ s.mem.get (byteAddr (effAddr s base off) 0))
    exact ⟨value ▸ loadWith_completes _ _ hb hd half, value ▸ loadWith_completes _ _ hb hd half⟩

/-- Settles O38: the shared store at each width. -/
theorem storeResults : Obligations.StoreResults := by
  unfold Obligations.StoreResults
  intro s src base off hs hb
  refine ⟨?byte, ?half, ?word⟩ <;> exact storeWith_completes _ hs hb

/-- Settles O39: the exception of the access at each width, raised by the shared load and the shared store. -/
theorem loadStoreFaults : Obligations.LoadStoreFaults := by
  unfold Obligations.LoadStoreFaults
  intro s base r off hb a
  refine ⟨fun hd => ?loads, fun hs => ?stores⟩
  case loads =>
    have load {i : Instr} {ext : Word → Word} {sz : Size} {f : Fault} (h : accessFault s .read a sz = some f) :
        loadWith i base r off sz ext s = .fault f :=
      loadWith_of_accessFault i ext hb hd h
    exact ⟨fun rejects => ⟨load (accessFault_byte rejects), load (accessFault_byte rejects)⟩,
      fun odd => ⟨load (accessFault_odd_half odd), load (accessFault_odd_half odd)⟩,
      fun even rejects => ⟨load (accessFault_even_half even rejects), load (accessFault_even_half even rejects)⟩,
      fun misaligned => load (accessFault_misaligned_word misaligned),
      fun alignedWord rejects => load (accessFault_aligned_word alignedWord rejects)⟩
  case stores =>
    have store {i : Instr} {sz : Size} {f : Fault} (h : accessFault s .write a sz = some f) :
        storeWith i r base off sz s = .fault f :=
      storeWith_of_accessFault i hs hb h
    exact ⟨fun rejects => store (accessFault_byte rejects),
      fun odd => store (accessFault_odd_half odd),
      fun even rejects => store (accessFault_even_half even rejects),
      fun misaligned => store (accessFault_misaligned_word misaligned),
      fun alignedWord rejects => store (accessFault_aligned_word alignedWord rejects)⟩

/-- Settles O43: the shared jump with each condition. -/
theorem jumpResults : Obligations.JumpResults := by
  unfold Obligations.JumpResults
  intro s base off hb
  refine ⟨?jmp, ?jeq, ?jne, ?jgt, ?jge, ?jlt, ?jle⟩
  case jmp => exact jumpIf_completes _ off hb (iff_of_true rfl trivial)
  all_goals exact jumpIf_completes _ off hb (by simp)

end Sys2Proof.Proofs
end

section
/-!
PROOFS. INT, IRT and HLT (spec/48_system.md, spec/60_exceptions.md R271 to R273), the meta opcodes (spec/49_meta.md)
and the start of execution (spec/10_state.md R54).
-/

namespace Sys2Proof.Machine

/-! ## The table entry of INT -/

/-- The table entry is aligned exactly when `idr` is. -/
theorem idtEntry_low_bits (s : State) (code : BitVec 8) :
    (idtEntry s code).extractLsb' 0 2 = (s.getX idrIndex).extractLsb' 0 2 := by
  apply BitVec.eq_of_toNat_eq
  have four : (4 : Word).toNat = 4 := rfl
  simp only [idtEntry, BitVec.extractLsb'_toNat, BitVec.toNat_add, BitVec.toNat_mul, BitVec.toNat_setWidth, four,
    Nat.shiftRight_zero]
  omega

section Int

variable {s : State} (imm : BitVec 16)

theorem exec_int_of_accessible (noContext : s.ctx.valid = false) (h : Accessible s (idtEntry s (intCode imm)) .word) :
    exec (.int imm) s = .next (trapEntry s (s.mem.load (idtEntry s (intCode imm)) .word)) := by
  have read : readHandler s (intCode imm) = .ok (s.mem.load (idtEntry s (intCode imm)) .word) :=
    (memRead_eq_ok { s with mode := .kernel } _ _ _).2 ⟨h, rfl⟩
  rw [exec_int_of_no_context s imm noContext, read]
  rfl

theorem exec_int_of_accessFault {f : Fault} (noContext : s.ctx.valid = false)
    (h : accessFault { s with mode := .kernel } .read (idtEntry s (intCode imm)) .word = some f) :
    exec (.int imm) s = .fault f := by
  have read : readHandler s (intCode imm) = .error f := (memRead_eq_error _ _ _ _).2 h
  rw [exec_int_of_no_context s imm noContext, read]
  rfl

end Int

theorem trapEntry_getX_ne (s : State) (handler : Word) {j : Fin 22} (notRet : j ≠ retIndex) (notBpr : j ≠ bprIndex) :
    (trapEntry s handler).getX j = s.getX j := by
  rw [trapEntry_getX, if_neg notBpr, if_neg notRet]

theorem trapReturn_getX_ne (s : State) {j : Fin 22} (h : j ≠ bprIndex) : (trapReturn s).getX j = s.getX j := by
  rw [trapReturn_getX, if_neg h]

/-! ## The words of the meta opcodes -/

theorem encMeta_eq_ofNat (op : BitVec 6) (rest : BitVec 26) :
    encMeta op rest = BitVec.ofNat 32 (op.toNat * 2 ^ 26 + rest.toNat) := by
  rw [← encMeta_toNat, BitVec.ofNat_toNat, BitVec.setWidth_eq]

end Sys2Proof.Machine

namespace Sys2Proof.Proofs

open Sys2Proof.Machine

/-- Settles O45: the table read succeeds, and trap entry does the rest. -/
theorem intEntersTrap : Obligations.IntEntersTrap := by
  unfold Obligations.IntEntersTrap
  intro s imm noContext entry accessible
  exact ⟨_, exec_int_of_accessible imm noContext accessible, trapEntry_getX s _ 0x13, trapEntry_getX s _ 0x12,
    fun _ => trapEntry_getX_ne s _, rfl, rfl, rfl, rfl, rfl, rfl, fun _ => rfl⟩

/-- Settles O46: adding four times the code does not change the low bits of `idr`. -/
theorem intTableFaults : Obligations.IntTableFaults := by
  unfold Obligations.IntTableFaults
  intro s imm noContext entry
  have lowBits : entry.extractLsb' 0 2 = (s.getX 0x14).extractLsb' 0 2 := idtEntry_low_bits s (intCode imm)
  rw [← lowBits]
  exact ⟨fun misaligned => exec_int_of_accessFault imm noContext (accessFault_misaligned_word misaligned),
    fun alignedEntry rejects => exec_int_of_accessFault imm noContext (accessFault_aligned_word alignedEntry rejects)⟩

/-- Settles O47: trap return, field by field. -/
theorem irtReturns : Obligations.IrtReturns := by
  unfold Obligations.IrtReturns
  intro s saved
  exact ⟨_, exec_irt_of_context s saved, trapReturn_getX s 0x12, fun i => trapReturn_getX_ne s, rfl, rfl, rfl, rfl, rfl,
    rfl, fun _ => rfl⟩

/-- Settles O48: the context and `ret` that INT leaves are what IRT reads. -/
theorem intThenIrtRestores : Obligations.IntThenIrtRestores := by
  unfold Obligations.IntThenIrtRestores
  intro s t u imm h ctx ret
  obtain ⟨-, handler, -, rfl⟩ := (exec_int_eq_next imm s t).1 h
  rw [trapEntry_ctx] at ctx
  have retAddress : u.getX 0x13 = s.pc + 4 := ret.trans (trapEntry_getX s handler 0x13)
  obtain ⟨v, irt, bpr, others, mode, valid, pc, flags, -, -, mem⟩ := irtReturns u (by rw [ctx])
  rw [ctx] at bpr mode
  exact ⟨v, irt, pc.trans retAddress, bpr, mode, valid, others, flags, mem⟩

/-- Settles O50: the advance of `pc` with the halted flag set. -/
theorem hltHalts : Obligations.HltHalts :=
  fun s => ⟨_, exec_hlt s, rfl, rfl, fun _ => rfl, rfl, rfl, rfl, rfl, fun _ => rfl⟩

/-- Settles O51: the words of the two opcodes, and the meaning of the meta opcodes. -/
theorem metaOpcodesStop : Obligations.MetaOpcodesStop := by
  unfold Obligations.MetaOpcodesStop
  intro s rest
  have segment : encode (.segment rest) = BitVec.ofNat 32 (0x27 * 2 ^ 26 + rest.toNat) := encMeta_eq_ofNat 0x27 rest
  have data : encode (.data rest) = BitVec.ofNat 32 (0x3E * 2 ^ 26 + rest.toNat) := encMeta_eq_ofNat 0x3E rest
  rw [← segment, ← data]
  exact ⟨exec_of_isMeta rfl s, exec_of_isMeta rfl s⟩

/-- Settles O53: the fields of the launch. -/
theorem launchState : Obligations.LaunchState :=
  ⟨fun l => ⟨rfl, rfl, rfl, rfl, rfl, State.launch_sts l, rfl, rfl⟩, ⟨Launch.default, rfl⟩, rfl⟩

end Sys2Proof.Proofs
end
